-- ==== Sys2Proof/Word.lean ====
section
/-!
DEFINITION. The word types of the hardware (spec 00_scope.md R5, R8): 8-bit registers and memory bytes, 16-bit
instruction words and address registers, and the 4-bit index that selects one of the sixteen registers or keys.
Every value is unsigned; the hardware has no sign extension (R8, R9).
-/

namespace Sys2Proof

/-- A register value or a memory byte, 8 bits (00_scope.md R5: `VW`). -/
abbrev Byte := BitVec 8

/-- An instruction word, the index register, the program counter, a stack entry: 16 bits (R5: `IW`, `PCW`). -/
abbrev Word := BitVec 16

/-- The number of a general register, 0 to 15 (10_state.md R20). -/
abbrev Reg := Fin 16

/-- A key code, 0 to 15 (10_state.md R30): the port carries 4 bits (60_exceptions.md R174). -/
abbrev KeyCode := Fin 16

end Sys2Proof
end

