-- ==== Sys2Proof/Syntax.lean ====
section
/-!
DEFINITION. The instructions: one constructor per row of spec/opcode_table.json (30_encoding.md R75), the fallback row
(R76) among them. Fields are those of R71, already split: `x`, `y` register numbers, `kk` an 8-bit immediate, `nnn` a
12-bit address, `n` a row count. `shr` and `shl` carry the ignored `y` field (R78), and `unrecognised` carries its word,
so that no bit of an encoding is dropped.
-/

namespace Sys2Proof

inductive Instr where
  /-- `00E0` CLS (43_display.md R140). -/
  | cls
  /-- `00EE` RET (40_flow.md R101). -/
  | ret
  /-- `1nnn` JP nnn (R102). -/
  | jp (nnn : BitVec 12)
  /-- `2nnn` CALL nnn (R103). -/
  | call (nnn : BitVec 12)
  /-- `3xkk` SE Vx, kk (R104). -/
  | seImm (x : Reg) (kk : Byte)
  /-- `4xkk` SNE Vx, kk (R105). -/
  | sneImm (x : Reg) (kk : Byte)
  /-- `5xy0` SE Vx, Vy (R106). -/
  | seReg (x y : Reg)
  /-- `6xkk` LD Vx, kk (41_alu.md R111). -/
  | ldImm (x : Reg) (kk : Byte)
  /-- `7xkk` ADD Vx, kk (R112). -/
  | addImm (x : Reg) (kk : Byte)
  /-- `8xy0` LD Vx, Vy (R113). -/
  | ldReg (x y : Reg)
  /-- `8xy1` OR Vx, Vy (R114). -/
  | orReg (x y : Reg)
  /-- `8xy2` AND Vx, Vy (R115). -/
  | andReg (x y : Reg)
  /-- `8xy3` XOR Vx, Vy (R116). -/
  | xorReg (x y : Reg)
  /-- `8xy4` ADD Vx, Vy (R117). -/
  | addReg (x y : Reg)
  /-- `8xy5` SUB Vx, Vy (R118). -/
  | subReg (x y : Reg)
  /-- `8xy6` SHR Vx; `y` is ignored (R119, R78). -/
  | shr (x y : Reg)
  /-- `8xy7` SUBN Vx, Vy (R120). -/
  | subnReg (x y : Reg)
  /-- `8xyE` SHL Vx; `y` is ignored (R121, R78). -/
  | shl (x y : Reg)
  /-- `9xy0` SNE Vx, Vy (40_flow.md R107). -/
  | sneReg (x y : Reg)
  /-- `Annn` LD I, nnn (42_index_memory.md R130). -/
  | ldI (nnn : BitVec 12)
  /-- `Bnnn` JP V0, nnn (40_flow.md R108). -/
  | jpV0 (nnn : BitVec 12)
  /-- `Cxkk` RND Vx, kk (41_alu.md R122). -/
  | rnd (x : Reg) (kk : Byte)
  /-- `Dxyn` DRW Vx, Vy, n; `n` counts rows, 0 to 15 (43_display.md R141). -/
  | drw (x y : Reg) (n : Fin 16)
  /-- `Ex9E` SKP Vx (44_keypad_timer.md R150). -/
  | skp (x : Reg)
  /-- `ExA1` SKNP Vx (R151). -/
  | sknp (x : Reg)
  /-- `Fx07` LD Vx, DT (R152). -/
  | ldVxDt (x : Reg)
  /-- `Fx0A` LD Vx, K (R153). -/
  | ldVxK (x : Reg)
  /-- `Fx15` LD DT, Vx (R154). -/
  | ldDtVx (x : Reg)
  /-- `Fx18` LD ST, Vx (R155). -/
  | ldStVx (x : Reg)
  /-- `Fx1E` ADD I, Vx (42_index_memory.md R131). -/
  | addI (x : Reg)
  /-- `Fx29` LD F, Vx (R132). -/
  | ldF (x : Reg)
  /-- `Fx33` LD B, Vx (R133). -/
  | ldB (x : Reg)
  /-- `Fx55` LD [I], Vx (R134). -/
  | storeRegs (x : Reg)
  /-- `Fx65` LD Vx, [I] (R135). -/
  | loadRegs (x : Reg)
  /-- A word that matches no row: a no-op (30_encoding.md R76, R77). -/
  | unrecognised (op : Word)
deriving DecidableEq, Repr

end Sys2Proof
end

