-- ==== Sys2Proof/WellFormed.lean ====
section
/-!
DEFINITION. Which terms of `Instr` are instructions of the hardware. Every field has exactly the width the encoding gives
it (30_encoding.md R71), so the one check left is that an `unrecognised` term carries a word no row of R75 matches; the
families are those of R77.
-/

namespace Sys2Proof

/-- The unrecognised words, by family, as 30_encoding.md R77 lists them. `m` is the top nibble, `n` the low nibble,
`kk` the low byte of the word. -/
def isUnrecognised (op : Word) : Bool :=
  let w := op.toNat
  let m := w / 4096
  let n := w % 16
  let kk := w % 256
  if m = 0x0 then w ≠ 0x00E0 && w ≠ 0x00EE
  else if m = 0x5 || m = 0x9 then n ≠ 0
  else if m = 0x8 then [0x8, 0x9, 0xA, 0xB, 0xC, 0xD, 0xF].contains n
  else if m = 0xE then kk ≠ 0x9E && kk ≠ 0xA1
  else if m = 0xF then !([0x07, 0x0A, 0x15, 0x18, 0x1E, 0x29, 0x33, 0x55, 0x65].contains kk)
  else false

/-- An instruction term that some word of the hardware stands for. -/
def Instr.WellFormed : Instr → Bool
  | .unrecognised op => isUnrecognised op
  | .cls | .ret => true
  | .jp _ | .call _ | .ldI _ | .jpV0 _ => true
  | .seImm _ _ | .sneImm _ _ | .ldImm _ _ | .addImm _ _ | .rnd _ _ => true
  | .seReg _ _ | .sneReg _ _ | .ldReg _ _ | .orReg _ _ | .andReg _ _ | .xorReg _ _ => true
  | .addReg _ _ | .subReg _ _ | .shr _ _ | .subnReg _ _ | .shl _ _ => true
  | .drw _ _ _ => true
  | .skp _ | .sknp _ | .ldVxDt _ | .ldVxK _ | .ldDtVx _ | .ldStVx _ => true
  | .addI _ | .ldF _ | .ldB _ | .storeRegs _ | .loadRegs _ => true

end Sys2Proof
end

