-- ==== Sys2Proof/Decode.lean ====
section
/-!
DEFINITION. Decoding and encoding (spec 30_encoding.md). Every instruction is one 16-bit word, stored big-endian (R70);
the fields are those of R71; the word selects the row whose pattern it matches (R75), and a word that matches no row is
the no-op of R76. Decoding reads nothing but the word (R79). `table` is the opcode map of R75, written as its masks and
matches.
-/

namespace Sys2Proof

/-! ### Fields (R71) -/

/-- `m = op[15:12]`, the operation family. -/
def fieldM (op : Word) : BitVec 4 := op.extractLsb' 12 4

/-- `x = op[11:8]`, a register number. -/
def fieldX (op : Word) : Reg := (op.extractLsb' 8 4).toFin

/-- `y = op[7:4]`, a register number. -/
def fieldY (op : Word) : Reg := (op.extractLsb' 4 4).toFin

/-- `n = op[3:0]`, a row count or a sub-operation. -/
def fieldN (op : Word) : Fin 16 := (op.extractLsb' 0 4).toFin

/-- `kk = op[7:0]`, an immediate byte or a sub-operation. -/
def fieldKk (op : Word) : Byte := op.extractLsb' 0 8

/-- `nnn = op[11:0]`, a 12-bit address. -/
def fieldNnn (op : Word) : BitVec 12 := op.extractLsb' 0 12

/-! ### Decoding (R74 to R79) -/

/-- Family 8, dispatched on `n` (R75 rows 10 to 18; the others are unrecognised, R77). -/
def decodeFamily8 (op : Word) : Instr :=
  let x := fieldX op
  let y := fieldY op
  match (fieldN op).val with
  | 0x0 => .ldReg x y
  | 0x1 => .orReg x y
  | 0x2 => .andReg x y
  | 0x3 => .xorReg x y
  | 0x4 => .addReg x y
  | 0x5 => .subReg x y
  | 0x6 => .shr x y
  | 0x7 => .subnReg x y
  | 0xE => .shl x y
  | _ => .unrecognised op

/-- Family F, dispatched on `kk` (R75 rows 26 to 34; the others are unrecognised, R77). -/
def decodeFamilyF (op : Word) : Instr :=
  let x := fieldX op
  match (fieldKk op).toNat with
  | 0x07 => .ldVxDt x
  | 0x0A => .ldVxK x
  | 0x15 => .ldDtVx x
  | 0x18 => .ldStVx x
  | 0x1E => .addI x
  | 0x29 => .ldF x
  | 0x33 => .ldB x
  | 0x55 => .storeRegs x
  | 0x65 => .loadRegs x
  | _ => .unrecognised op

/-- The instruction a 16-bit word is: total on every word (R79). -/
def decode (op : Word) : Instr :=
  match (fieldM op).toNat with
  | 0x0 => if op = 0x00E0 then .cls else if op = 0x00EE then .ret else .unrecognised op
  | 0x1 => .jp (fieldNnn op)
  | 0x2 => .call (fieldNnn op)
  | 0x3 => .seImm (fieldX op) (fieldKk op)
  | 0x4 => .sneImm (fieldX op) (fieldKk op)
  | 0x5 => if fieldN op = 0 then .seReg (fieldX op) (fieldY op) else .unrecognised op
  | 0x6 => .ldImm (fieldX op) (fieldKk op)
  | 0x7 => .addImm (fieldX op) (fieldKk op)
  | 0x8 => decodeFamily8 op
  | 0x9 => if fieldN op = 0 then .sneReg (fieldX op) (fieldY op) else .unrecognised op
  | 0xA => .ldI (fieldNnn op)
  | 0xB => .jpV0 (fieldNnn op)
  | 0xC => .rnd (fieldX op) (fieldKk op)
  | 0xD => .drw (fieldX op) (fieldY op) (fieldN op)
  | 0xE =>
    if fieldKk op = 0x9E then .skp (fieldX op)
    else if fieldKk op = 0xA1 then .sknp (fieldX op)
    else .unrecognised op
  | 0xF => decodeFamilyF op
  | _ => .unrecognised op

/-- The big-endian word of two bytes: the byte at the lower address is the high byte (R70; 20_memory.md R59). -/
def wordOfBytes (b0 b1 : Byte) : Word := b0 ++ b1

/-- The two bytes of a word, the high byte first (R70). -/
def bytesOfWord (w : Word) : List Byte := [w.extractLsb' 8 8, w.extractLsb' 0 8]

/-- Why a list of bytes holds no instruction. -/
inductive DecodeError where
  /-- Fewer than two bytes are left: an instruction is two bytes (R70). -/
  | tooShort
deriving DecidableEq, Repr

/-- Decoding from a list of bytes: the instruction at its head and the bytes after it, or a named rejection. -/
def decodeBytes : List Byte → Except DecodeError (Instr × List Byte)
  | b0 :: b1 :: rest => .ok (decode (wordOfBytes b0 b1), rest)
  | [_] => .error .tooShort
  | [] => .error .tooShort

/-! ### Encoding (R72, R75) -/

/-- A 4-bit field of a word. -/
def nibble (a : Fin 16) : BitVec 4 := BitVec.ofFin a

/-- Format NNN (R72). -/
def encodeNnn (m : BitVec 4) (nnn : BitVec 12) : Word := m ++ nnn

/-- Format XKK (R72). -/
def encodeXkk (m : BitVec 4) (x : Reg) (kk : Byte) : Word := (m ++ nibble x) ++ kk

/-- Formats XY and XYN (R72). -/
def encodeXyn (m : BitVec 4) (x y : Reg) (n : BitVec 4) : Word := (m ++ nibble x) ++ (nibble y ++ n)

/-- The word of an instruction (R75). -/
def encode : Instr → Word
  | .cls => 0x00E0
  | .ret => 0x00EE
  | .jp nnn => encodeNnn 0x1 nnn
  | .call nnn => encodeNnn 0x2 nnn
  | .seImm x kk => encodeXkk 0x3 x kk
  | .sneImm x kk => encodeXkk 0x4 x kk
  | .seReg x y => encodeXyn 0x5 x y 0x0
  | .ldImm x kk => encodeXkk 0x6 x kk
  | .addImm x kk => encodeXkk 0x7 x kk
  | .ldReg x y => encodeXyn 0x8 x y 0x0
  | .orReg x y => encodeXyn 0x8 x y 0x1
  | .andReg x y => encodeXyn 0x8 x y 0x2
  | .xorReg x y => encodeXyn 0x8 x y 0x3
  | .addReg x y => encodeXyn 0x8 x y 0x4
  | .subReg x y => encodeXyn 0x8 x y 0x5
  | .shr x y => encodeXyn 0x8 x y 0x6
  | .subnReg x y => encodeXyn 0x8 x y 0x7
  | .shl x y => encodeXyn 0x8 x y 0xE
  | .sneReg x y => encodeXyn 0x9 x y 0x0
  | .ldI nnn => encodeNnn 0xA nnn
  | .jpV0 nnn => encodeNnn 0xB nnn
  | .rnd x kk => encodeXkk 0xC x kk
  | .drw x y n => encodeXyn 0xD x y (nibble n)
  | .skp x => encodeXkk 0xE x 0x9E
  | .sknp x => encodeXkk 0xE x 0xA1
  | .ldVxDt x => encodeXkk 0xF x 0x07
  | .ldVxK x => encodeXkk 0xF x 0x0A
  | .ldDtVx x => encodeXkk 0xF x 0x15
  | .ldStVx x => encodeXkk 0xF x 0x18
  | .addI x => encodeXkk 0xF x 0x1E
  | .ldF x => encodeXkk 0xF x 0x29
  | .ldB x => encodeXkk 0xF x 0x33
  | .storeRegs x => encodeXkk 0xF x 0x55
  | .loadRegs x => encodeXkk 0xF x 0x65
  | .unrecognised op => op

/-! ### The opcode map as the spec prints it (R75) -/

/-- One row of R75: a word selects it when `op AND mask = match`. -/
structure Row where
  number : Nat
  pattern : Word
  mask : Word
deriving DecidableEq, Repr

/-- Rows 1 to 18 of R75. -/
def tableLow : List Row :=
  [⟨1, 0x00E0, 0xFFFF⟩, ⟨2, 0x00EE, 0xFFFF⟩, ⟨3, 0x1000, 0xF000⟩, ⟨4, 0x2000, 0xF000⟩, ⟨5, 0x3000, 0xF000⟩,
    ⟨6, 0x4000, 0xF000⟩, ⟨7, 0x5000, 0xF00F⟩, ⟨8, 0x6000, 0xF000⟩, ⟨9, 0x7000, 0xF000⟩, ⟨10, 0x8000, 0xF00F⟩,
    ⟨11, 0x8001, 0xF00F⟩, ⟨12, 0x8002, 0xF00F⟩, ⟨13, 0x8003, 0xF00F⟩, ⟨14, 0x8004, 0xF00F⟩, ⟨15, 0x8005, 0xF00F⟩,
    ⟨16, 0x8006, 0xF00F⟩, ⟨17, 0x8007, 0xF00F⟩, ⟨18, 0x800E, 0xF00F⟩]

/-- Rows 19 to 34 of R75. -/
def tableHigh : List Row :=
  [⟨19, 0x9000, 0xF00F⟩, ⟨20, 0xA000, 0xF000⟩, ⟨21, 0xB000, 0xF000⟩, ⟨22, 0xC000, 0xF000⟩, ⟨23, 0xD000, 0xF000⟩,
    ⟨24, 0xE09E, 0xF0FF⟩, ⟨25, 0xE0A1, 0xF0FF⟩, ⟨26, 0xF007, 0xF0FF⟩, ⟨27, 0xF00A, 0xF0FF⟩, ⟨28, 0xF015, 0xF0FF⟩,
    ⟨29, 0xF018, 0xF0FF⟩, ⟨30, 0xF01E, 0xF0FF⟩, ⟨31, 0xF029, 0xF0FF⟩, ⟨32, 0xF033, 0xF0FF⟩, ⟨33, 0xF055, 0xF0FF⟩,
    ⟨34, 0xF065, 0xF0FF⟩]

/-- The 34 rows of R75. -/
def table : List Row := tableLow ++ tableHigh

/-- A word matches a row (R75). -/
def Row.Matches (r : Row) (op : Word) : Bool := (op &&& r.mask) = r.pattern

/-- The number of an instruction's row in R75; 35 is the fallback row of spec/opcode_table.json (R76). -/
def Instr.rowNumber : Instr → Nat
  | .cls => 1 | .ret => 2 | .jp _ => 3 | .call _ => 4 | .seImm _ _ => 5 | .sneImm _ _ => 6 | .seReg _ _ => 7
  | .ldImm _ _ => 8 | .addImm _ _ => 9 | .ldReg _ _ => 10 | .orReg _ _ => 11 | .andReg _ _ => 12 | .xorReg _ _ => 13
  | .addReg _ _ => 14 | .subReg _ _ => 15 | .shr _ _ => 16 | .subnReg _ _ => 17 | .shl _ _ => 18 | .sneReg _ _ => 19
  | .ldI _ => 20 | .jpV0 _ => 21 | .rnd _ _ => 22 | .drw _ _ _ => 23 | .skp _ => 24 | .sknp _ => 25 | .ldVxDt _ => 26
  | .ldVxK _ => 27 | .ldDtVx _ => 28 | .ldStVx _ => 29 | .addI _ => 30 | .ldF _ => 31 | .ldB _ => 32
  | .storeRegs _ => 33 | .loadRegs _ => 34 | .unrecognised _ => 35

/-! ### The host's question -/

/-- The instruction read from a word whose bits are numbered as spec/opcode_table.json numbers them: its low 16 bits
(every bit above `nbits` taken as 0), laid out as the hardware stores them (R70) and given to the decoder. -/
def decodeTableWord (nbits w : Nat) : Option Instr :=
  match decodeBytes (bytesOfWord (BitVec.ofNat 16 (w % 2 ^ nbits))) with
  | .ok (i, _) => some i
  | .error _ => none

end Sys2Proof
end

