-- ==== Sys2Proof/Config.lean ====
section
/-!
DEFINITION. What an implementation fixes and the free value (spec 00_scope.md R5 to R7).
Two parameters of R7 stand where a repair can reach them: `Config.font` in Machine/Font.lean and `pickKey` in Machine/Ops.lean.
-/

namespace Sys2Proof.Config

/-- `MEM_SIZE`: bytes of memory (00_scope.md R5). -/
def memSize : Nat := 4096

/-- `ROM_BASE`: where the ROM is loaded (R5). -/
def romBase : Nat := 0x200

/-- `ROM_MAX`: the longest ROM that fits (00_scope.md R6). -/
def romMax : Nat := memSize - romBase

/-- `RESET_PC` (R5). -/
def resetPc : Word := 0x200

/-- `CPU_HZ`: instruction cycles per second (R5). -/
def cpuHz : Nat := 500

/-- `TIMER_HZ`: timer decrements per second (R5). -/
def timerHz : Nat := 60

/-- `TIME_QUANTA_PER_SECOND`: the unit in which `Tick(dt)` measures `dt` (R7; the spec's decision D10; log entry 13). -/
def timeQuantaPerSecond : Nat := 1500

/-- `CPU_PERIOD`: quanta per instruction cycle, 1500 / 500 (R7; D10; log entry 13). -/
def cpuPeriod : Nat := timeQuantaPerSecond / cpuHz

/-- `TIMER_PERIOD`: quanta per timer decrement, 1500 / 60 (R7; D10; log entry 13). -/
def timerPeriod : Nat := timeQuantaPerSecond / timerHz

/-- The two values of `OOB_POLICY` (R7; 20_memory.md R57). -/
inductive OobPolicy where
  /-- An access at 4096 or above raises MemFault. -/
  | fault
  /-- Every address is taken modulo 4096 at the moment of access; no MemFault exists. -/
  | wrap
deriving DecidableEq, Repr

/-- `OOB_POLICY`: this hardware faults (R57; the spec's decision D1; log entry 6). -/
def oobPolicy : OobPolicy := .fault

/-- FREE VALUE: the n-th draw of `random_byte()` that no list of draws supplies (41_alu.md R122; 60_exceptions.md
R183; the spec's decision D16; log entry 2). It has no body: nothing constrains it. -/
opaque freeDraw : Nat → Byte

end Sys2Proof.Config
end

