-- ==== Sys2Proof/Machine/State.lean ====
section
/-!
DEFINITION. The state of the hardware as plain data (spec 10_state.md R20 to R40), the reasons a step can stop, and the
state right after reset (R38). Every field but the last three is a piece of state of R40; `draws`, `drawCount` and
`host` are the model's own (log entries 2 and 3): inputs the environment supplies (R37) and the counter of the free value.
-/

namespace Sys2Proof.Machine

/-- Memory as a sparse list of (address, byte) pairs in one canonical form: addresses strictly rising, all below 4096,
no entry equal to what an unlisted address reads as (`Memory.wf` in Machine/Ops.lean; log entry 20). -/
abbrev Memory := List Host.Cell

/-- The framebuffer, `fb[py][px]` with row `py` 0 to 31 and column `px` 0 to 63; `true` is a lit pixel (R29). -/
abbrev Framebuffer := Vector (Vector Bool 64) 32

/-- A timer is a pair (count, accumulated quanta) (60_exceptions.md R172; 10_state.md R31 to R33). -/
structure Timer where
  count : Byte
  acc : Nat
deriving DecidableEq, Repr

/-- The kind of a memory access (60_exceptions.md R160). -/
inductive AccessKind where
  | fetch
  | read
  | write
deriving DecidableEq, Repr

/-- A fault record `(cause, info)` of the latch (60_exceptions.md R160). -/
inductive FaultRecord where
  /-- Code 1: an access outside memory, with its kind, base address and byte count (R161, R162). -/
  | memFault (kind : AccessKind) (base : Word) (count : Nat)
  /-- Code 2: a call with SP = 15 (R163). -/
  | stackOverflow
  /-- Code 3: a return with SP = 0 (R164). -/
  | stackUnderflow
  /-- Code 4: a key code above 15, with its value (R165). -/
  | keyCodeFault (code : Byte)
deriving DecidableEq, Repr

/-- What the host can do to the hardware (60_exceptions.md R182); the three reads are functions of the state. -/
inductive HostOp where
  /-- `Reset(rom)` (70_reset_and_hazards.md R190). -/
  | reset (rom : List Byte)
  /-- `Tick(dt, draws)`, `dt` in quanta (R176). -/
  | tick (dt : Nat) (draws : List Byte)
  /-- `KeyDown(code)` (R174). -/
  | keyDown (code : KeyCode)
  /-- `KeyUp(code)` (R174). -/
  | keyUp (code : KeyCode)
deriving DecidableEq, Repr

/-- Everything the hardware is (R40), and the model's three input fields. -/
structure State where
  /-- `V0` to `VF`; `VF` is the flag register (R20, R21). -/
  v : Vector Byte 16
  /-- The index register `I` (R22). -/
  i : Word
  /-- The program counter (R23 to R25). -/
  pc : Word
  /-- The stack pointer (R26). -/
  sp : Byte
  /-- `stack[0..15]` (R27). -/
  stack : Vector Word 16
  /-- `mem[0..4095]` (R28). -/
  mem : Memory
  /-- The framebuffer (R29). -/
  fb : Framebuffer
  /-- The set of pressed keys, one bit per key (R30). -/
  keys : Vector Bool 16
  /-- The delay timer: `DT` and `dt_acc` (R31, R33). -/
  dt : Timer
  /-- The sound timer: `ST` and `st_acc` (R32, R33). -/
  st : Timer
  /-- `cpu_acc`, the CPU's quanta not yet turned into cycles (R34). -/
  cpuAcc : Nat
  /-- The fault latch (R35). -/
  fault : Option FaultRecord
  /-- MODEL'S OWN: the draws of the running `Tick` that no `Cxkk` has taken yet (60_exceptions.md R176, R183; entry 2). -/
  draws : List Byte
  /-- MODEL'S OWN: how many draws have come from the free value `Config.freeDraw` (R183; entry 2). -/
  drawCount : Nat
  /-- MODEL'S OWN: what the host does next, oldest first (R181; entry 3). -/
  host : List HostOp
deriving DecidableEq, Repr

/-- The stops of the model itself. The hardware's own faults are no stops: they are taken, and answer a next state with
the latch set (60_exceptions.md R167). -/
inductive Fault where
  /-- Raised by RET and CALL when SP is above 15, an index the 16-entry stack does not have (10_state.md R26, R27). No run
  from reset reaches such an SP. SAFE: the model stops where the spec describes no machine (log entry 5). -/
  | stackIndexAbsent (sp : Byte)
deriving DecidableEq, Repr

/-- What the model gives no meaning to. -/
inductive Refusal where
  /-- Raised by the arm of an instruction that has no meaning yet. SAFE: the model stops. -/
  | notModelled (mnemonic : String)
  /-- Raised by the host operation Reset for a ROM of odd length or above 3584 bytes, to which the spec gives no meaning
  (70_reset_and_hazards.md R191). SAFE: the model stops (log entry 9). -/
  | romRejected (length : Nat)
deriving DecidableEq, Repr

/-- What a step answers. -/
abbrev Result := Host.Outcome State Fault Refusal

/-- The machine right after `Reset` with an empty ROM (R38, R190, R191): memory reads as FONT and zeros where nothing is
listed. The last three fields are the model's choice (log entries 2 and 3). -/
def State.reset : State where
  v := Vector.replicate 16 0
  i := 0
  pc := Config.resetPc
  sp := 0
  stack := Vector.replicate 16 0
  mem := []
  fb := Vector.replicate 32 (Vector.replicate 64 false)
  keys := Vector.replicate 16 false
  dt := ⟨0, 0⟩
  st := ⟨0, 0⟩
  cpuAcc := 0
  fault := none
  draws := []
  drawCount := 0
  host := []

end Sys2Proof.Machine
end

