-- ==== Sys2Proof/Machine/Flags.lean ====
section
/-!
DEFINITION. Every flag computation of the hardware (spec 10_state.md R21; 41_alu.md R110). The flag is the register VF
and receives 0 or 1.
-/

namespace Sys2Proof.Machine

/-- A truth value as the byte VF receives. -/
def flagByte (c : Bool) : Byte := if c then 1 else 0

/-- The carry of `8xy4`: 1 when the unbounded sum exceeds 255 (R117). -/
def carryFlag (a b : Byte) : Byte := flagByte (decide (a.toNat + b.toNat > 255))

/-- The flag of `8xy5` and `8xy7`: 1 when strictly greater, 0 when equal (R118, R120). -/
def greaterFlag (a b : Byte) : Byte := flagByte (decide (a.toNat > b.toNat))

/-- The flag of `8xy6`: bit 0, the bit shifted out (R119). -/
def shiftRightFlag (a : Byte) : Byte := a &&& 1

/-- The flag of `8xyE`: bit 7, the bit shifted out (R121; 90_conflicts.md C7). -/
def shiftLeftFlag (a : Byte) : Byte := (a >>> 7) &&& 1

/-- Does toggling this pixel count as a collision? A lit pixel that is turned off does; one that is turned on does not
(43_display.md R143; 90_conflicts.md C1; log entry 14). -/
def collides (before after : Bool) : Bool := before && !after

end Sys2Proof.Machine
end

