-- ==== Sys2Proof/Machine/Font.lean ====
section
/-!
DEFINITION. The font (spec 70_reset_and_hazards.md R193): sixteen glyphs of five bytes at addresses 0x000 to 0x04F, the
glyph of digit d at 5 * d, bit 7 the leftmost pixel. The bytes are the spec's default for the parameter FONT (the spec's
decision D21, from general knowledge; log entry 1). No statement rests on them unless it says so.
-/

namespace Sys2Proof.Config

/-- The glyphs of the digits 0 to 7 (R193). -/
def fontLow : List Byte :=
  [0xF0, 0x90, 0x90, 0x90, 0xF0] ++ [0x20, 0x60, 0x20, 0x20, 0x70] ++ [0xF0, 0x10, 0xF0, 0x80, 0xF0] ++
  [0xF0, 0x10, 0xF0, 0x10, 0xF0] ++ [0x90, 0x90, 0xF0, 0x10, 0x10] ++ [0xF0, 0x80, 0xF0, 0x10, 0xF0] ++
  [0xF0, 0x80, 0xF0, 0x90, 0xF0] ++ [0xF0, 0x10, 0x20, 0x40, 0x40]

/-- The glyphs of the digits 8 to F (R193). -/
def fontHigh : List Byte :=
  [0xF0, 0x90, 0xF0, 0x90, 0xF0] ++ [0xF0, 0x90, 0xF0, 0x10, 0xF0] ++ [0xF0, 0x90, 0xF0, 0x90, 0x90] ++
  [0xE0, 0x90, 0xE0, 0x90, 0xE0] ++ [0xF0, 0x80, 0x80, 0x80, 0xF0] ++ [0xE0, 0x90, 0x90, 0x90, 0xE0] ++
  [0xF0, 0x80, 0xF0, 0x80, 0xF0] ++ [0xF0, 0x80, 0xF0, 0x80, 0x80]

/-- `FONT`, 80 bytes (R5: `FONT_SIZE`; R193). -/
def font : List Byte := fontLow ++ fontHigh

end Sys2Proof.Config
end

