-- ==== Sys2Proof/Machine/Operands.lean ====
section
/-!
DEFINITION. Every operand form of the hardware: zero extension of an immediate and of a register (spec 30_encoding.md
R73), the one data addressing mode `EA(k) = I + k` on naturals (42_index_memory.md R136; 20_memory.md R58), the decimal
digits of a byte (R133), and the bits of a sprite row (43_display.md R142). There is no sign extension (00_scope.md R8).
-/

namespace Sys2Proof.Machine

/-- `zext_16` of a 12-bit address (R73). -/
def zext12 (nnn : BitVec 12) : Word := nnn.setWidth 16

/-- `zext_16` of a register value (R108, R131, R132). -/
def zext8 (b : Byte) : Word := b.setWidth 16

/-- The address of element `k` of an access based at `base`: a natural, never wrapped (R58, R136). -/
def effectiveAddress (base : Word) (k : Nat) : Nat := base.toNat + k

/-- The three decimal digits of a byte, hundreds first (R133). -/
def bcdDigits (b : Byte) : List Byte :=
  [BitVec.ofNat 8 (b.toNat / 100), BitVec.ofNat 8 (b.toNat / 10 % 10), BitVec.ofNat 8 (b.toNat % 10)]

/-- Column `k` of a sprite row, left to right: bit 7 is column 0 (R142; 00_scope.md R8). -/
def spriteBit (row : Byte) (k : Nat) : Bool := row.getLsbD (7 - k)

end Sys2Proof.Machine
end

