-- ==== Sys2Proof/Machine/Ops.lean ====
section
/-!
DEFINITION. The named operations over memory, registers, stack, timers and keys that every meaning is written with, taking
a fault as one shared operation (spec 60_exceptions.md R167), and beside it the one way out of a fault, Reset (R168).
-/

namespace Sys2Proof.Machine

/-! ### Memory (20_memory.md) -/

/-- What an address that the list does not hold reads as: the reset contents of R38, FONT at 0x000 to 0x04F and 0 above
(log entries 1 and 20). -/
def unlistedByte (a : Nat) : Byte := Config.font.getD a 0

/-- The byte a memory holds at an address below 4096. -/
def memGet : Memory → Nat → Byte
  | [], a => unlistedByte a
  | (k, b) :: rest, a => if a = k then b else memGet rest a

/-- Memory with one byte replaced, keeping the canonical form. -/
def memSet : Memory → Nat → Byte → Memory
  | [], a, b => if b = unlistedByte a then [] else [(a, b)]
  | (k, c) :: rest, a, b =>
    if a < k then (if b = unlistedByte a then (k, c) :: rest else (a, b) :: (k, c) :: rest)
    else if a = k then (if b = unlistedByte a then rest else (a, b) :: rest)
    else (k, c) :: memSet rest a b

/-- The canonical form from a lower bound on: addresses strictly rising, below 4096, no entry that an unlisted address
would read as. -/
def memWfFrom : Nat → Memory → Bool
  | _, [] => true
  | lo, (k, b) :: rest => decide (lo ≤ k) && decide (k < Config.memSize) && decide (b ≠ unlistedByte k) && memWfFrom (k + 1) rest

/-- The canonical form of a memory. -/
def Memory.wf (m : Memory) : Bool := memWfFrom 0 m

/-- Does an access of `n` bytes at `base` leave memory? Under the policy `fault` it does when any byte of it is at 4096 or
above, an empty access never (R56, R57); under `wrap` no access does. -/
def outOfRangeUnder (p : Config.OobPolicy) (base n : Nat) : Bool :=
  match p with
  | .fault => decide (0 < n) && decide (Config.memSize < base + n)
  | .wrap => false

/-- The cell an address names under a policy (R57). -/
def cellUnder (p : Config.OobPolicy) (a : Nat) : Nat :=
  match p with
  | .fault => a
  | .wrap => a % Config.memSize

/-- The range check of this hardware (R56, R57; log entry 6). -/
def outOfRange (base n : Nat) : Bool := outOfRangeUnder Config.oobPolicy base n

/-- `MemRead(addr, 1)` of an address that the range check has passed (R53). -/
def readByte (s : State) (a : Nat) : Byte := memGet s.mem (cellUnder Config.oobPolicy a)

/-- `MemWrite(addr, 1, v)` of an address that the range check has passed (R54). -/
def writeByte (s : State) (a : Nat) (b : Byte) : State :=
  { s with mem := memSet s.mem (cellUnder Config.oobPolicy a) b }

/-- `MemRead(addr, 2)`: big-endian (R55, R59). Only the instruction fetch uses it. -/
def readWord (s : State) (a : Nat) : Word := wordOfBytes (readByte s a) (readByte s (a + 1))

/-- `MemRange(addr, n)` of a range that the check has passed: the bytes in ascending address order (R56). -/
def readRange (s : State) (base n : Nat) : List Byte := (List.range n).map fun k => readByte s (base + k)

/-- Stores a list of bytes at ascending addresses (R61, R63). -/
def writeRange (s : State) (base : Nat) : List Byte → State
  | [] => s
  | b :: rest => writeRange (writeByte s base b) (base + 1) rest

/-! ### General registers (10_state.md R20) -/

/-- `V[x]`. -/
def readReg (s : State) (x : Reg) : Byte := s.v.get x

/-- `V[x] <- b`. -/
def writeReg (s : State) (x : Reg) (b : Byte) : State := { s with v := s.v.set x.val b x.isLt }

/-- The number of VF, the flag register (R21). -/
def vf : Reg := 15

/-- `V[0..x]` as a list, `V0` first (42_index_memory.md R134). -/
def regsUpTo (s : State) (x : Reg) : List Byte := s.v.toList.take (x.val + 1)

/-- `V[k] <- byte at base + k` for k = 0 to x; registers above x keep their values (R135). -/
def loadRegsFrom (s : State) (base : Word) (x : Reg) : State :=
  { s with v := Vector.ofFn fun k : Fin 16 => if k ≤ x then readByte s (effectiveAddress base k.val) else readReg s k }

/-! ### Program counter and stack (40_flow.md) -/

/-- Bytes per instruction (00_scope.md R5: `INSTR_BYTES`). -/
def instrBytes : Word := 2

/-- `skip` under a condition: two more bytes past the post-fetch PC, modulo 65536 (R100). -/
def skipIf (c : Bool) (s : State) : State := if c then { s with pc := s.pc + instrBytes } else s

/-- `stack[j]`; the index exists for j below 16 (10_state.md R27). -/
def readStack (s : State) (j : Nat) : Option Word := s.stack[j]?

/-- Calls outstanding at most: SP = 15 is a full stack (R27, R163). -/
def maxSp : Byte := 15

/-- Push: `SP <- SP + 1; stack[SP] <- w` (R103). -/
def push (s : State) (w : Word) : State :=
  { s with sp := s.sp + 1, stack := s.stack.setIfInBounds (s.sp + 1).toNat w }

/-! ### Timers (60_exceptions.md R172, R173) -/

/-- `Set(n)`: the count is replaced, the accumulator is not (R172; the spec's decision D12). -/
def timerSet (t : Timer) (n : Byte) : Timer := { t with count := n }

/-- `Active()` (R172). -/
def timerActive (t : Timer) : Bool := decide (t.count.toNat > 0)

/-- The loop of R173: one decrement per period while the count is not 0. The first argument is the count. -/
def timerLoop : Nat → Nat → Timer
  | 0, acc => ⟨0, acc⟩
  | c + 1, acc =>
    if Config.timerPeriod ≤ acc then timerLoop c (acc - Config.timerPeriod) else ⟨BitVec.ofNat 8 (c + 1), acc⟩

/-- `Timer.Tick(dt)` (R173; the idle timer's accumulator is cleared, the spec's decision D11). -/
def timerTick (dt : Nat) (t : Timer) : Timer :=
  if t.count = 0 then { t with acc := 0 } else timerLoop t.count.toNat (t.acc + dt)

/-! ### Keys (60_exceptions.md R174, R175) -/

/-- `KeyDown(code)` (R174). -/
def keyDown (code : KeyCode) (s : State) : State := { s with keys := s.keys.set code.val true code.isLt }

/-- `KeyUp(code)` (R174). -/
def keyUp (code : KeyCode) (s : State) : State := { s with keys := s.keys.set code.val false code.isLt }

/-- `IsKeyPressed(code)` of a code the instruction has checked (R175). -/
def isKeyPressed (s : State) (code : Nat) : Bool := s.keys[code]?.getD false

/-- `GetKeyPress()` with `PickKey` the smallest member (R175; the spec's decision D8; log entry 10). -/
def pickKey (keys : Vector Bool 16) : Option KeyCode := (List.finRange 16).find? fun k => keys.get k

/-! ### Random draws (R183) -/

/-- The next draw, and the state that has taken it: the next of the draws of this `Tick`, or the free value when none is
left (log entry 2). -/
def takeDraw (s : State) : Byte × State :=
  match s.draws with
  | d :: rest => (d, { s with draws := rest })
  | [] => (Config.freeDraw s.drawCount, { s with drawCount := s.drawCount + 1 })

/-! ### Faults (60_exceptions.md R160 to R168) -/

/-- The cause code of a record (R160). -/
def faultCode : FaultRecord → Nat
  | .memFault _ _ _ => 1
  | .stackOverflow => 2
  | .stackUnderflow => 3
  | .keyCodeFault _ => 4

/-- TAKING A FAULT (R167): PC is the address of the faulting instruction, the latch is set, everything else is as it was
before the cycle. Every check precedes every effect, so the state a meaning was given differs from that of the cycle's
beginning in PC alone. -/
def takeFault (pc0 : Word) (f : FaultRecord) (s : State) : State := { s with pc := pc0, fault := some f }

/-- `raise F(info)` from a meaning, which is given the post-fetch PC `pc0 + 2` (R24, R167). -/
def raiseFault (f : FaultRecord) (s : State) : Result := .next (takeFault (s.pc - instrBytes) f s)

/-- The precondition of Reset (70_reset_and_hazards.md R191). -/
def romAccepted (rom : List Byte) : Bool := decide (rom.length ≤ Config.romMax) && decide (rom.length % 2 = 0)

/-- `Reset(rom)` (R190), the only way out of a latched fault (R168): every piece of state takes its reset value and the
ROM is loaded at 0x200. The model's own inputs stay (log entry 16). -/
def resetWith (rom : List Byte) (s : State) : State :=
  { writeRange State.reset Config.romBase rom with draws := s.draws, drawCount := s.drawCount, host := s.host }

/-! ### What the host reads (R178 to R180) -/

/-- `Framebuffer()`: a copy of the pixels (R178). -/
def framebuffer (s : State) : Framebuffer := s.fb

/-- `SoundActive()` (R179). -/
def soundActive (s : State) : Bool := timerActive s.st

/-- `FaultStatus()` (R180). -/
def faultStatus (s : State) : Option FaultRecord := s.fault

end Sys2Proof.Machine
end

