-- ==== Sys2Proof/Machine/Alu.lean ====
section
/-!
DEFINITION. Register load, arithmetic, logic, shift and random (spec 41_alu.md). None of them faults, and each leaves PC at
its post-fetch value. Assignments run in the order the rule writes them, each reading the registers as the lines above left
them (00_scope.md R10; the spec's decision D19; log entry 15).
-/

namespace Sys2Proof.Machine

/-- `6xkk` (R111). -/
def execLdImm (x : Reg) (kk : Byte) (s : State) : Result := .next (writeReg s x kk)

/-- `7xkk` (R112): no flag. -/
def execAddImm (x : Reg) (kk : Byte) (s : State) : Result := .next (writeReg s x (readReg s x + kk))

/-- `8xy0` (R113). -/
def execLdReg (x y : Reg) (s : State) : Result := .next (writeReg s x (readReg s y))

/-- `8xy1` (R114): VF is not written. -/
def execOrReg (x y : Reg) (s : State) : Result := .next (writeReg s x (readReg s x ||| readReg s y))

/-- `8xy2` (R115). -/
def execAndReg (x y : Reg) (s : State) : Result := .next (writeReg s x (readReg s x &&& readReg s y))

/-- `8xy3` (R116). -/
def execXorReg (x y : Reg) (s : State) : Result := .next (writeReg s x (readReg s x ^^^ readReg s y))

/-- `8xy4` (R117): the sum is written first, then the carry of the operands at the start. -/
def execAddReg (x y : Reg) (s : State) : Result :=
  let carry := carryFlag (readReg s x) (readReg s y)
  .next (writeReg (writeReg s x (readReg s x + readReg s y)) vf carry)

/-- `8xy5` (R118): the flag is written first, then the difference of the registers as they then stand. -/
def execSubReg (x y : Reg) (s : State) : Result :=
  let s1 := writeReg s vf (greaterFlag (readReg s x) (readReg s y))
  .next (writeReg s1 x (readReg s1 x - readReg s1 y))

/-- `8xy6` (R119): flag first; the source is Vx and `y` is ignored. -/
def execShr (x _y : Reg) (s : State) : Result :=
  let s1 := writeReg s vf (shiftRightFlag (readReg s x))
  .next (writeReg s1 x (readReg s1 x >>> 1))

/-- `8xy7` (R120): flag first. -/
def execSubnReg (x y : Reg) (s : State) : Result :=
  let s1 := writeReg s vf (greaterFlag (readReg s y) (readReg s x))
  .next (writeReg s1 x (readReg s1 y - readReg s1 x))

/-- `8xyE` (R121): flag first; the source is Vx and `y` is ignored. -/
def execShl (x _y : Reg) (s : State) : Result :=
  let s1 := writeReg s vf (shiftLeftFlag (readReg s x))
  .next (writeReg s1 x (readReg s1 x <<< 1))

/-- `Cxkk` (R122): one fresh draw, masked. -/
def execRnd (x : Reg) (kk : Byte) (s : State) : Result :=
  .next (writeReg (takeDraw s).2 x ((takeDraw s).1 &&& kk))

end Sys2Proof.Machine
end

