-- ==== Sys2Proof/Machine/Display.lean ====
section
/-!
DEFINITION. The display and its sprite engine (spec 43_display.md): clear, XOR blit with wrap-around, collision. The loops
are those of R142, rows outside and columns inside.
-/

namespace Sys2Proof.Machine

/-- `fb[py][px]`, both coordinates wrapped (R144). -/
def pixelAt (fb : Framebuffer) (px py : Nat) : Bool :=
  (fb[py % 32]'(Nat.mod_lt _ (by decide)))[px % 64]'(Nat.mod_lt _ (by decide))

/-- `fb[py][px] <- b`, both coordinates wrapped (R144). -/
def setPixel (fb : Framebuffer) (px py : Nat) (b : Bool) : Framebuffer :=
  fb.set (py % 32) ((fb[py % 32]'(Nat.mod_lt _ (by decide))).set (px % 64) b (Nat.mod_lt _ (by decide)))
    (Nat.mod_lt _ (by decide))

/-- A display with every pixel off (R140). -/
def clearDisplay : Framebuffer := Vector.replicate 32 (Vector.replicate 64 false)

/-- What a blit has done so far: the pixels, and whether it has collided. -/
abbrev BlitState := Framebuffer × Bool

/-- The body of the inner loop of R142: one sprite bit at column `px`, row `py`. -/
def blitPixel (on : Bool) (px py : Nat) (acc : BlitState) : BlitState :=
  if on then
    let before := pixelAt acc.1 px py
    (setPixel acc.1 px py (!before), acc.2 || collides before (!before))
  else acc

/-- The inner loop of R142: the eight columns of one row, from column `k` on. -/
def blitColumns (sx py : Nat) (row : Byte) : List Nat → BlitState → BlitState
  | [], acc => acc
  | k :: ks, acc => blitColumns sx py row ks (blitPixel (spriteBit row k) (sx + k) py acc)

/-- The outer loop of R142: the rows of the sprite, the first at row `sy`. -/
def blitRows (sx : Nat) : Nat → List Byte → BlitState → BlitState
  | _, [], acc => acc
  | sy, row :: rows, acc => blitRows sx (sy + 1) rows (blitColumns sx sy row (List.range 8) acc)

/-- `Blit(sx, sy, rows)` (R142): the new pixels and whether the blit collided (R143). -/
def blit (fb : Framebuffer) (sx sy : Nat) (rows : List Byte) : BlitState := blitRows sx sy rows (fb, false)

/-- `00E0` (R140). -/
def execCls (s : State) : Result := .next { s with fb := clearDisplay }

/-- `Dxyn` (R141): the coordinates are read before VF is written; an empty sprite cannot fault. -/
def execDrw (x y : Reg) (n : Fin 16) (s : State) : Result :=
  if outOfRange (effectiveAddress s.i 0) n.val then raiseFault (.memFault .read s.i n.val) s
  else
    let drawn := blit s.fb (readReg s x).toNat (readReg s y).toNat (readRange s (effectiveAddress s.i 0) n.val)
    .next (writeReg { s with fb := drawn.1 } vf (flagByte drawn.2))

end Sys2Proof.Machine
end

