-- ==== Sys2Proof/Machine/Flow.lean ====
section
/-!
DEFINITION. Control transfer (spec 40_flow.md): return, jump, call, the register skips, jump with offset. Every meaning is
given the post-fetch PC (10_state.md R24).
-/

namespace Sys2Proof.Machine

/-- `00EE` (R101): underflow with SP = 0, else `PC <- stack[SP]; SP <- SP - 1`. The entry is not cleared. -/
def execRet (s : State) : Result :=
  if s.sp = 0 then raiseFault .stackUnderflow s
  else
    match readStack s s.sp.toNat with
    | some w => .next { s with pc := w, sp := s.sp - 1 }
    | none => .fault (.stackIndexAbsent s.sp)

/-- `1nnn` (R102). -/
def execJp (nnn : BitVec 12) (s : State) : Result := .next { s with pc := zext12 nnn }

/-- `2nnn` (R103): overflow with SP = 15, else push the post-fetch PC and jump. -/
def execCall (nnn : BitVec 12) (s : State) : Result :=
  if s.sp = maxSp then raiseFault .stackOverflow s
  else if s.sp.toNat < maxSp.toNat then .next { push s s.pc with pc := zext12 nnn }
  else .fault (.stackIndexAbsent s.sp)

/-- `3xkk` (R104). -/
def execSeImm (x : Reg) (kk : Byte) (s : State) : Result := .next (skipIf (decide (readReg s x = kk)) s)

/-- `4xkk` (R105). -/
def execSneImm (x : Reg) (kk : Byte) (s : State) : Result := .next (skipIf (decide (readReg s x ≠ kk)) s)

/-- `5xy0` (R106). -/
def execSeReg (x y : Reg) (s : State) : Result := .next (skipIf (decide (readReg s x = readReg s y)) s)

/-- `9xy0` (R107). -/
def execSneReg (x y : Reg) (s : State) : Result := .next (skipIf (decide (readReg s x ≠ readReg s y)) s)

/-- `Bnnn` (R108): the register is always V0. -/
def execJpV0 (nnn : BitVec 12) (s : State) : Result := .next { s with pc := zext8 (readReg s 0) + zext12 nnn }

end Sys2Proof.Machine
end

