-- ==== Sys2Proof/Machine/IndexMemory.lean ====
section
/-!
DEFINITION. Index register and memory transfer (spec 42_index_memory.md). The whole range of an access is checked before any
byte is read or written (R136), and I is not changed by an access (R136; the spec's decision D26).
-/

namespace Sys2Proof.Machine

/-- `Annn` (R130). -/
def execLdI (nnn : BitVec 12) (s : State) : Result := .next { s with i := zext12 nnn }

/-- `Fx1E` (R131): modulo 65536, no flag. -/
def execAddI (x : Reg) (s : State) : Result := .next { s with i := s.i + zext8 (readReg s x) }

/-- `Fx29` (R132): the whole byte times five. -/
def execLdF (x : Reg) (s : State) : Result := .next { s with i := zext8 (readReg s x) * 5 }

/-- `Fx33` (R133). -/
def execLdB (x : Reg) (s : State) : Result :=
  if outOfRange (effectiveAddress s.i 0) 3 then raiseFault (.memFault .write s.i 3) s
  else .next (writeRange s (effectiveAddress s.i 0) (bcdDigits (readReg s x)))

/-- `Fx55` (R134). -/
def execStoreRegs (x : Reg) (s : State) : Result :=
  if outOfRange (effectiveAddress s.i 0) (x.val + 1) then raiseFault (.memFault .write s.i (x.val + 1)) s
  else .next (writeRange s (effectiveAddress s.i 0) (regsUpTo s x))

/-- `Fx65` (R135). -/
def execLoadRegs (x : Reg) (s : State) : Result :=
  if outOfRange (effectiveAddress s.i 0) (x.val + 1) then raiseFault (.memFault .read s.i (x.val + 1)) s
  else .next (loadRegsFrom s s.i x)

end Sys2Proof.Machine
end

