-- ==== Sys2Proof/Machine/KeypadTimer.lean ====
section
/-!
DEFINITION. Keypad and timer instructions (spec 44_keypad_timer.md). No instruction changes the set of keys or an
accumulator.
-/

namespace Sys2Proof.Machine

/-- `Ex9E` (R150): the whole byte is the key code. -/
def execSkp (x : Reg) (s : State) : Result :=
  if (readReg s x).toNat > 15 then raiseFault (.keyCodeFault (readReg s x)) s
  else .next (skipIf (isKeyPressed s (readReg s x).toNat) s)

/-- `ExA1` (R151). -/
def execSknp (x : Reg) (s : State) : Result :=
  if (readReg s x).toNat > 15 then raiseFault (.keyCodeFault (readReg s x)) s
  else .next (skipIf (!isKeyPressed s (readReg s x).toNat) s)

/-- `Fx07` (R152). -/
def execLdVxDt (x : Reg) (s : State) : Result := .next (writeReg s x s.dt.count)

/-- `Fx0A` (R153): with no key down, PC goes back to this instruction and nothing else changes. -/
def execLdVxK (x : Reg) (s : State) : Result :=
  match pickKey s.keys with
  | some k => .next (writeReg s x (BitVec.ofNat 8 k.val))
  | none => .next { s with pc := s.pc - instrBytes }

/-- `Fx15` (R154). -/
def execLdDtVx (x : Reg) (s : State) : Result := .next { s with dt := timerSet s.dt (readReg s x) }

/-- `Fx18` (R155). -/
def execLdStVx (x : Reg) (s : State) : Result := .next { s with st := timerSet s.st (readReg s x) }

end Sys2Proof.Machine
end

