-- ==== Sys2Proof/Machine/Unrecognised.lean ====
section
/-!
DEFINITION. A word that matches no row (spec 30_encoding.md R76): nothing beyond the PC advance of the fetch.
-/

namespace Sys2Proof.Machine

/-- An unrecognised word: a no-op, no fault (R76). -/
def execUnrecognised (_op : Word) (s : State) : Result := .next s

end Sys2Proof.Machine
end

