-- ==== Sys2Proof/Machine/Cycle.lean ====
section
/-!
DEFINITION. One CPU cycle (spec 30_encoding.md R74): fetch, advance PC, decode, execute. A stopped CPU runs none
(10_state.md R35; 60_exceptions.md R167, R177).
-/

namespace Sys2Proof.Machine

/-- The fetch and the PC advance that precedes execution (10_state.md R24). -/
def afterFetch (s : State) : State := { s with pc := s.pc + instrBytes }

/-- The instruction at PC. -/
def fetched (s : State) : Instr := decode (readWord s s.pc.toNat)

/-- `CpuCycle` (R74): a fetch out of range is taken as a fault before anything else (60_exceptions.md R161). -/
def cpuCycle (s : State) : Result :=
  if outOfRange s.pc.toNat 2 then .next (takeFault s.pc (.memFault .fetch s.pc 2) s)
  else exec (fetched s) (afterFetch s)

/-- A cycle of a CPU that may be stopped: while a fault is latched nothing happens (R167, R177; log entry 4). -/
def cpuStep (s : State) : Result := if s.fault.isSome then .next s else cpuCycle s

/-- The state with a word stored where the next cycle fetches: the latch is clear, no host operation is pending, and PC
names two bytes of memory (it is moved to the reset entry point if it does not; log entry 7). -/
def placeFetchWord (w : Word) (s : State) : State :=
  let pc := if outOfRange s.pc.toNat 2 then Config.resetPc else s.pc
  writeRange { s with pc := pc, fault := none, host := [] } pc.toNat (bytesOfWord w)

end Sys2Proof.Machine
end

