-- ==== Sys2Proof/Machine/Tick.lean ====
section
/-!
DEFINITION. The operations the host drives the hardware through (spec 60_exceptions.md R176 to R182): `Tick` with the two
timers and the CPU's catch-up loop, key events, Reset. The three reads are in Machine/Ops.lean.
-/

namespace Sys2Proof.Machine

/-- The loop of R177: cycles while a whole period is left, abandoned at a fault (the spec's decision D27). The first
argument bounds the turns; the quanta at the start are enough of them. -/
def cpuLoop : Nat → State → Result
  | 0, s => .next s
  | n + 1, s =>
    if s.cpuAcc < Config.cpuPeriod then .next s
    else
      match cpuCycle s with
      | .next t => if t.fault.isSome then .next t else cpuLoop n { t with cpuAcc := t.cpuAcc - Config.cpuPeriod }
      | .fault r => .fault r
      | .refused r => .refused r

/-- `Cpu.Tick(dt)` (R177): a stopped CPU keeps its accumulator; there is no cap (the spec's decision D14). -/
def cpuTick (dt : Nat) (s : State) : Result :=
  if s.fault.isSome then .next s
  else cpuLoop (s.cpuAcc + dt) { s with cpuAcc := s.cpuAcc + dt }

/-- What `Tick` does before the CPU's part: the draws of this call are taken in, then the delay timer and the sound timer
are advanced (R176; the spec's decision D13). -/
def tickTimers (dt : Nat) (draws : List Byte) (s : State) : State :=
  { s with draws := draws, dt := timerTick dt s.dt, st := timerTick dt s.st }

/-- `Machine.Tick(dt, draws)` (R176): delay timer, sound timer, CPU. Draws that no cycle has taken are dropped (log entry 18). -/
def machineTick (dt : Nat) (draws : List Byte) (s : State) : Result :=
  match cpuTick dt (tickTimers dt draws s) with
  | .next t => .next { t with draws := [] }
  | .fault r => .fault r
  | .refused r => .refused r

/-- One host operation, atomic (R181, R182). A ROM that fails the precondition of Reset has no meaning (R191; log entry 9). -/
def hostOp (op : HostOp) (s : State) : Result :=
  match op with
  | .reset rom => if romAccepted rom then .next (resetWith rom s) else .refused (.romRejected rom.length)
  | .tick dt draws => machineTick dt draws s
  | .keyDown code => .next (keyDown code s)
  | .keyUp code => .next (keyUp code s)

/-- What happens next: the oldest pending host operation, or, with none pending, one cycle (log entry 3). -/
def advance (s : State) : Result :=
  match s.host with
  | op :: rest => hostOp op { s with host := rest }
  | [] => cpuStep s

end Sys2Proof.Machine
end

