-- ==== Sys2Proof/Machine/Step.lean ====
section
/-!
DEFINITION. One step of the machine, and the host's way to place an instruction where the next step fetches it.
-/

namespace Sys2Proof.Machine

/-- One step: the oldest pending host operation, else one CPU cycle (Machine/Tick.lean: `advance`). -/
def step (s : State) : Host.Outcome State Fault Refusal := advance s

/-- `s` with the instruction whose bits are `w` (every bit above `nbits` taken as 0) stored where the next step fetches
(Machine/Cycle.lean: `placeFetchWord`; log entry 7). -/
def State.withFetchWord (s : State) (nbits w : Nat) : State :=
  placeFetchWord (BitVec.ofNat 16 (w % 2 ^ nbits)) s

end Sys2Proof.Machine
end

