-- ==== Sys2Proof/Safety.lean ====
section
/-!
DEFINITION. What claims about the machine are stated with: words computed from their fields, the parts of the state and
which of them a change leaves alone, the bounds a program must keep (spec 70_reset_and_hazards.md R202), the end-of-run
predicate (R204), the pixels a sprite covers (43_display.md R142), runs of cycles, and the machine's invariant.
-/

namespace Sys2Proof.Safety

open Sys2Proof.Machine

/-! ### Words from their fields (30_encoding.md R71), on naturals and apart from `encode` -/

/-- The word `mnnn`. -/
def wordNnn (m : Nat) (nnn : BitVec 12) : Word := BitVec.ofNat 16 (m * 4096 + nnn.toNat)

/-- The word `mxkk`. -/
def wordXkk (m : Nat) (x : Reg) (kk : Byte) : Word := BitVec.ofNat 16 (m * 4096 + x.val * 256 + kk.toNat)

/-- The word `mxyn`. -/
def wordXyn (m : Nat) (x y : Reg) (n : Nat) : Word := BitVec.ofNat 16 (m * 4096 + x.val * 256 + y.val * 16 + n)

/-! ### Frames: which parts of the state a change leaves alone (10_state.md R39, R40) -/

/-- The parts of the state. -/
inductive Part where
  | regs | index | pc | stack | memory | display | keys | delay | sound | cpuAcc | fault | inputs
deriving DecidableEq, Repr

/-- A part of the state reads the same before and after. -/
def Same (s t : State) : Part → Prop
  | .regs => ∀ r, readReg t r = readReg s r
  | .index => t.i = s.i
  | .pc => t.pc = s.pc
  | .stack => t.sp = s.sp ∧ ∀ j : Fin 16, t.stack.get j = s.stack.get j
  | .memory => ∀ a, readByte t a = readByte s a
  | .display => ∀ px py, pixelAt t.fb px py = pixelAt s.fb px py
  | .keys => t.keys = s.keys
  | .delay => t.dt = s.dt
  | .sound => t.st = s.st
  | .cpuAcc => t.cpuAcc = s.cpuAcc
  | .fault => t.fault = s.fault
  | .inputs => t.draws = s.draws ∧ t.drawCount = s.drawCount ∧ t.host = s.host

/-- Every part but those listed reads the same. -/
def ChangesOnly (ps : List Part) (s t : State) : Prop := ∀ p, p ∉ ps → Same s t p

/-- Every register but those listed holds the same value. -/
def SameRegsBut (rs : List Reg) (s t : State) : Prop := ∀ r, r ∉ rs → readReg t r = readReg s r

/-- Every byte outside `n` bytes at `base` reads the same. -/
def SameMemoryOutside (base n : Nat) (s t : State) : Prop :=
  ∀ a, a < base ∨ base + n ≤ a → readByte t a = readByte s a

/-- The parts an instruction may write, row by row of the access matrix (10_state.md R39). Every instruction that can fault
may also write the fault latch (60_exceptions.md R160, R167), and then PC goes back to its address. -/
def mayWrite : Instr → List Part
  | .cls => [.display]
  | .ret => [.pc, .stack, .fault]
  | .call _ => [.pc, .stack, .fault]
  | .jp _ | .jpV0 _ | .seImm _ _ | .sneImm _ _ | .seReg _ _ | .sneReg _ _ => [.pc]
  | .ldImm _ _ | .addImm _ _ | .ldReg _ _ | .orReg _ _ | .andReg _ _ | .xorReg _ _ => [.regs]
  | .addReg _ _ | .subReg _ _ | .shr _ _ | .subnReg _ _ | .shl _ _ | .ldVxDt _ => [.regs]
  | .rnd _ _ => [.regs, .inputs]
  | .drw _ _ _ => [.regs, .display, .pc, .fault]
  | .skp _ | .sknp _ => [.pc, .fault]
  | .ldVxK _ => [.regs, .pc]
  | .ldDtVx _ => [.delay]
  | .ldStVx _ => [.sound]
  | .ldI _ | .addI _ | .ldF _ => [.index]
  | .ldB _ | .storeRegs _ => [.memory, .pc, .fault]
  | .loadRegs _ => [.regs, .pc, .fault]
  | .unrecognised _ => []

/-- The registers an instruction may write (10_state.md R20, R21, R39): its `x` register where that is a destination, VF
where the instruction sets the flag, V0 to Vx for `Fx65`. -/
def MayWriteReg (i : Instr) (r : Reg) : Prop :=
  match i with
  | .ldImm x _ | .addImm x _ | .rnd x _ | .ldReg x _ | .orReg x _ | .andReg x _ | .xorReg x _ => r = x
  | .addReg x _ | .subReg x _ | .shr x _ | .subnReg x _ | .shl x _ => r = x ∨ r = 15
  | .drw _ _ _ => r = 15
  | .ldVxDt x | .ldVxK x => r = x
  | .loadRegs x => r ≤ x
  | .cls | .ret | .jp _ | .call _ | .jpV0 _ | .seImm _ _ | .sneImm _ _ | .seReg _ _ | .sneReg _ _ => False
  | .ldI _ | .addI _ | .ldF _ | .ldB _ | .storeRegs _ | .skp _ | .sknp _ | .ldDtVx _ | .ldStVx _ => False
  | .unrecognised _ => False

/-! ### Faults -/

/-- The instruction takes the fault `f`: a next state whose latch holds `f`, whose PC is the address of the instruction
(two before the post-fetch PC), and in which everything else is unchanged (60_exceptions.md R167). -/
def TakesFault (i : Instr) (f : FaultRecord) (s : State) : Prop :=
  ∃ t, exec i s = .next t ∧ t.fault = some f ∧ t.pc + 2 = s.pc ∧ ChangesOnly [.pc, .fault] s t

/-- The rows of 60_exceptions.md R160: which fault an instruction may raise, when, and with what info. -/
def FaultListed (i : Instr) (s : State) (f : FaultRecord) : Prop :=
  match i with
  | .ret => s.sp = 0 ∧ f = .stackUnderflow
  | .call _ => s.sp = 15 ∧ f = .stackOverflow
  | .drw _ _ n => 0 < n.val ∧ 4095 < s.i.toNat + n.val - 1 ∧ f = .memFault .read s.i n.val
  | .ldB _ => 4095 < s.i.toNat + 2 ∧ f = .memFault .write s.i 3
  | .storeRegs x => 4095 < s.i.toNat + x.val ∧ f = .memFault .write s.i (x.val + 1)
  | .loadRegs x => 4095 < s.i.toNat + x.val ∧ f = .memFault .read s.i (x.val + 1)
  | .skp x | .sknp x => 15 < (readReg s x).toNat ∧ f = .keyCodeFault (readReg s x)
  | .cls | .jp _ | .jpV0 _ | .seImm _ _ | .sneImm _ _ | .seReg _ _ | .sneReg _ _ => False
  | .ldImm _ _ | .addImm _ _ | .ldReg _ _ | .orReg _ _ | .andReg _ _ | .xorReg _ _ | .addReg _ _ | .subReg _ _ => False
  | .shr _ _ | .subnReg _ _ | .shl _ _ | .rnd _ _ | .ldI _ | .addI _ | .ldF _ => False
  | .ldVxDt _ | .ldVxK _ | .ldDtVx _ | .ldStVx _ | .unrecognised _ => False

/-- The bounds of R202 for one instruction: what must hold for it not to fault. `s` is the post-fetch state. -/
def WithinBounds (i : Instr) (s : State) : Prop :=
  match i with
  | .ret => 1 ≤ s.sp.toNat
  | .call _ => s.sp.toNat ≤ 14
  | .drw _ _ n => 0 < n.val → s.i.toNat + n.val - 1 ≤ 0xFFF
  | .ldB _ => s.i.toNat + 2 ≤ 0xFFF
  | .storeRegs x | .loadRegs x => s.i.toNat + x.val ≤ 0xFFF
  | .skp x | .sknp x => (readReg s x).toNat ≤ 0xF
  | .cls | .jp _ | .jpV0 _ | .seImm _ _ | .sneImm _ _ | .seReg _ _ | .sneReg _ _ => True
  | .ldImm _ _ | .addImm _ _ | .ldReg _ _ | .orReg _ _ | .andReg _ _ | .xorReg _ _ | .addReg _ _ | .subReg _ _ => True
  | .shr _ _ | .subnReg _ _ | .shl _ _ | .rnd _ _ | .ldI _ | .addI _ | .ldF _ => True
  | .ldVxDt _ | .ldVxK _ | .ldDtVx _ | .ldStVx _ | .unrecognised _ => True

/-! ### Sprites (43_display.md R142 to R144) -/

/-- Some 1-bit of the sprite, drawn with its top-left corner at (sx, sy), lands on the pixel at column `px`, row `py`. -/
def Covers (sx sy : Nat) (rows : List Byte) (px py : Nat) : Prop :=
  ∃ r k, k < 8 ∧ (∃ row, rows[r]? = some row ∧ row.getLsbD (7 - k) = true) ∧ (sx + k) % 64 = px ∧ (sy + r) % 32 = py

/-! ### Runs -/

/-- Nothing is latched and the host has nothing pending: the next step is a CPU cycle. -/
def Running (s : State) : Prop := s.fault = none ∧ s.host = []

/-- `n` CPU cycles (30_encoding.md R74), abandoned at a fault. -/
def runCycles : Nat → State → Result
  | 0, s => .next s
  | n + 1, s =>
    match cpuCycle s with
    | .next t => if t.fault.isSome then .next t else runCycles n t
    | .fault r => .fault r
    | .refused r => .refused r

/-- R204: no fault is latched and the word at PC jumps to itself. -/
def EndOfRun (s : State) : Prop :=
  s.fault = none ∧ s.pc.toNat ≤ 0xFFE ∧ (readByte s s.pc.toNat).toNat * 256 + (readByte s (s.pc.toNat + 1)).toNat = 0x1000 + s.pc.toNat

/-- The operation pending next is not a Reset. -/
def NextIsNotReset (s : State) : Prop := ∀ rom rest, s.host ≠ .reset rom :: rest

/-- The operation pending next is not a Reset with a ROM that 70_reset_and_hazards.md R191 excludes. -/
def NextRomIsGood (s : State) : Prop :=
  ∀ rom rest, s.host = .reset rom :: rest → rom.length ≤ 3584 ∧ rom.length % 2 = 0

/-- What every step keeps: memory is canonical, SP indexes the stack (10_state.md R26), every return address is one a call
can push and `stack[0]` is never written (R27; 40_flow.md R101), and PC is at most `0x10FE` (R25). -/
structure Inv (s : State) : Prop where
  memory : Memory.wf s.mem = true
  stackPointer : s.sp.toNat ≤ 15
  returnAddresses : ∀ j : Fin 16, (s.stack.get j).toNat ≤ 0x1000
  entryZero : s.stack.get 0 = 0
  programCounter : s.pc.toNat ≤ 0x10FE

end Sys2Proof.Safety
end

