-- ==== Sys2Proof/Certificates/Slice0/Obligations.lean ====
section
/-!
DEFINITION. The statements for the provers. Each docstring names the rule of spec/ it formalises. Meanings are given the
post-fetch state (10_state.md R24), so a statement about `exec` speaks of the PC after the fetch.
-/

open Sys2Proof Sys2Proof.Machine Sys2Proof.Safety

/-! ### Encoding -/

/-- Decode and encode agree (30_encoding.md R71, R72, R75): no bit of an instruction is dropped. -/
def Obligations.DecodeOfEncodeIsIdentity : Prop := ∀ i : Instr, i.WellFormed = true → decode (encode i) = i

/-- The other direction: every word has one meaning, a well-formed one, and encoding it gives the word back (R79). -/
def Obligations.EncodeOfDecodeIsIdentity : Prop :=
  ∀ w : Word, (decode w).WellFormed = true ∧ encode (decode w) = w

/-- R75: the decoder selects the row whose mask and match the word meets, at most one row is met, and with none the word is
unrecognised. That families 5, 9 and 0 are matched exactly is the spec's decision D17. -/
def Obligations.DecodeSelectsTheMatchingRow : Prop :=
  ∀ op : Word,
    (∀ r ∈ table, r.Matches op = true ↔ (decode op).rowNumber = r.number) ∧
    ((∀ r ∈ table, r.Matches op = false) → decode op = .unrecognised op)

/-- R77: the words that decode to the no-op are those of the listed families. -/
def Obligations.UnrecognisedWordsAreTheListedFamilies : Prop :=
  ∀ op : Word, decode op = .unrecognised op ↔ isUnrecognised op = true

/-- Words the spec prints beside their meaning (R80; 95_test_vectors.md E7, E8, P2, P3). -/
def Obligations.SampleWordsDecode : Prop :=
  decode 0x6005 = .ldImm 0 5 ∧ decode 0x7003 = .addImm 0 3 ∧ decode 0xA200 = .ldI 0x200 ∧ decode 0xD005 = .drw 0 0 5 ∧
  decode 0x1204 = .jp 0x204 ∧ decode 0x2210 = .call 0x210 ∧ decode 0x00EE = .ret ∧ decode 0x8014 = .addReg 0 1 ∧
  decode 0xF10A = .ldVxK 1 ∧ decode 0xE1A1 = .sknp 1 ∧ decode 0xF255 = .storeRegs 2 ∧ decode 0x0042 = .unrecognised 0x0042

/-! ### The cycle -/

/-- R74: a running machine with nothing pending fetches the big-endian word at PC, advances PC by 2 and executes; with PC
above 0xFFE it raises MemFault(fetch, PC, 2) and nothing else changes (R161, the spec's decision D1). That a step with no
host operation pending is one cycle is the model's choice (log entry 3). -/
def Obligations.StepRunsTheDecodedInstruction : Prop :=
  ∀ s : State, Running s →
    (s.pc.toNat ≤ 0xFFE →
      step s =
        exec (decode (BitVec.ofNat 16 ((readByte s s.pc.toNat).toNat * 256 + (readByte s (s.pc.toNat + 1)).toNat)))
          { s with pc := s.pc + 2 }) ∧
    (0xFFE < s.pc.toNat → step s = .next { s with fault := some (.memFault .fetch s.pc 2) })

/-- R76: a word that matches no row is fetched, PC advances by 2, and nothing else changes. -/
def Obligations.UnrecognisedWordIsANoOp : Prop :=
  ∀ (s : State) (op : Word),
    exec (.unrecognised op) s = .next s ∧
    ((∀ r ∈ table, r.Matches op = false) → s.pc.toNat ≤ 0xFFE → readWord s s.pc.toNat = op →
      cpuCycle s = .next { s with pc := s.pc + 2 })

/-- A store is seen by the very next fetch (20_memory.md R66, R59): two registers stored where PC points are the next
instruction, V0 its high byte. -/
def Obligations.StoredCodeIsFetchedNext : Prop :=
  ∀ (x : Reg) (s t : State), Running s → Memory.wf s.mem = true → 1 ≤ x.val → s.i.toNat + x.val ≤ 0xFFF → s.pc = s.i →
    exec (.storeRegs x) s = .next t →
    step t =
      exec (decode (BitVec.ofNat 16 ((readReg s 0).toNat * 256 + (readReg s 1).toNat))) { t with pc := t.pc + 2 }

/-- R204: a machine at the end of its run stays there: a cycle gives the same state back. -/
def Obligations.EndOfRunIsAFixedPoint : Prop := ∀ s : State, s.host = [] → EndOfRun s → step s = .next s

/-! ### Faults -/

/-- R167 (the spec's decision D2): a cycle that raises a fault leaves everything as it was before the cycle and sets the
latch, and the CPU executes no further cycle (that such a step answers the same state is log entry 4). -/
def Obligations.FaultingCycleIsUndone : Prop :=
  ∀ (s t : State) (f : FaultRecord), Running s → step s = .next t → t.fault = some f →
    t = { s with fault := some f } ∧ step t = .next t

/-- R168, R177 (D2): while a fault is latched no step but a Reset changes the latch, and only keys, timers and the pending
inputs change; a Reset clears it. -/
def Obligations.OnlyResetLeavesAFault : Prop :=
  ∀ (s t : State) (f : FaultRecord), s.fault = some f → step s = .next t →
    (NextIsNotReset s → t.fault = some f ∧ ChangesOnly [.keys, .delay, .sound, .inputs] s t) ∧
    (¬ NextIsNotReset s → t.fault = none)

/-- R160 (D1, D5, D6, D7): a fault raised by an executing instruction is the one its row lists, under the row's condition
and with the row's info; the causes have the codes 1 to 4. -/
def Obligations.FaultsAreThoseListed : Prop :=
  (∀ (i : Instr) (s t : State) (f : FaultRecord), s.fault = none → exec i s = .next t → t.fault = some f →
    FaultListed i s f) ∧
  (∀ (k : AccessKind) (b : Word) (n : Nat) (c : Byte),
    faultCode (.memFault k b n) = 1 ∧ faultCode .stackOverflow = 2 ∧ faultCode .stackUnderflow = 3 ∧
    faultCode (.keyCodeFault c) = 4)

/-- R202: with SP in its range every instruction answers a next state, and it faults exactly when its bound is broken. That
breaking a bound faults, and which bounds there are, is the spec's choice (decisions D1, D2, D3, D5, D6, D7; log entries 6
and 24). -/
def Obligations.InstructionFaultsExactlyOutsideItsBounds : Prop :=
  ∀ (i : Instr) (s : State), s.fault = none → s.sp.toNat ≤ 15 →
    ∃ t, exec i s = .next t ∧ (t.fault = none ↔ WithinBounds i s)

/-- R56, R57, R58 (the spec's decisions D1, D3, D4): an access is out of range exactly when it is not empty and its last byte
is above 4095, the sum not reduced; under the parameter's other value `wrap` no access is, and every address names a byte. -/
def Obligations.RangeCheckIsOnNaturals : Prop :=
  ∀ base n : Nat,
    (outOfRange base n = true ↔ 0 < n ∧ 4095 < base + n - 1) ∧
    outOfRangeUnder .wrap base n = false ∧ cellUnder .wrap base = base % 4096 ∧ cellUnder .fault base = base

/-! ### Whole-machine rules -/

/-- The machine's invariant is kept by every step, whatever the host does (10_state.md R25, R26, R27; log entry 20 for the
form of memory). -/
def Obligations.StepKeepsInvariant : Prop := ∀ s t : State, Inv s → step s = .next t → Inv t

/-- The invariant holds right after reset. -/
def Obligations.ResetMeetsInvariant : Prop := Inv State.reset

/-- R11: from a state that meets the invariant every step answers a next state, a cycle that completes or one that faults;
the one stop is a Reset whose ROM 70_reset_and_hazards.md R191 excludes. This rests on choices: R11 on the spec's decision D2
(log entry 24), what a step is on log entry 3, the step of a stopped CPU on log entry 4, and the refused ROM on entry 9. -/
def Obligations.StepAlwaysAnswersNext : Prop :=
  ∀ s : State, Inv s → NextRomIsGood s → ∃ t, step s = .next t

/-- 10_state.md R34, 60_exceptions.md R177: with no fault latched, less than one period is left in `cpu_acc` after every
step, whatever the host does. -/
def Obligations.CpuAccumulatorStaysBelowPeriod : Prop :=
  ∀ s t : State, (s.fault = none → s.cpuAcc < Config.cpuPeriod) → step s = .next t →
    t.fault = none → t.cpuAcc < Config.cpuPeriod

/-- The access matrix (10_state.md R39): an instruction writes no part of the state but those of its row. -/
def Obligations.AccessMatrixIsKept : Prop :=
  ∀ (i : Instr) (s t : State), exec i s = .next t → ChangesOnly (mayWrite i) s t

/-- 10_state.md R20, R21: no instruction writes a register but its own `x` destination, VF where it sets the flag, and V0 to
Vx for `Fx65`. -/
def Obligations.OnlyNamedRegistersAreWritten : Prop :=
  ∀ (i : Instr) (s t : State) (r : Reg), exec i s = .next t → ¬ MayWriteReg i r → readReg t r = readReg s r

/-! ### Memory -/

/-- 20_memory.md R53, R54: a write replaces the byte at its address and no other. The canonical form is the model's
(log entry 20). -/
def Obligations.WriteByteReplacesOneByte : Prop :=
  ∀ (s : State) (a : Nat) (b : Byte), Memory.wf s.mem = true → a ≤ 4095 →
    readByte (writeByte s a b) a = b ∧ (∀ c, c ≠ a → readByte (writeByte s a b) c = readByte s c) ∧
    Memory.wf (writeByte s a b).mem = true

/-- The model's form of memory (log entry 20): two canonical memories whose 4096 bytes read alike are the same data. -/
def Obligations.CanonicalMemoriesThatReadAlikeAreEqual : Prop :=
  ∀ m m' : Memory, Memory.wf m = true → Memory.wf m' = true → (∀ a, a ≤ 4095 → memGet m a = memGet m' a) → m = m'

/-! ### Control transfer (40_flow.md) -/

/-- R101, R164 (D6): RET pops the return address, leaves the entry in place and lowers SP; with SP = 0 it raises
StackUnderflow. With SP above 15, which no run reaches, the model stops by name (the model's choice, log entry 5). -/
def Obligations.ReturnPopsOrUnderflows : Prop :=
  ∀ s : State,
    decode 0x00EE = .ret ∧
    (s.sp = 0 → TakesFault .ret .stackUnderflow s) ∧
    (∀ j : Fin 16, 1 ≤ j.val → s.sp.toNat = j.val →
      ∃ t, exec .ret s = .next t ∧ t.pc = s.stack.get j ∧ t.sp.toNat + 1 = s.sp.toNat ∧
        (∀ k : Fin 16, t.stack.get k = s.stack.get k) ∧ ChangesOnly [.pc, .stack] s t) ∧
    (15 < s.sp.toNat → exec .ret s = .fault (.stackIndexAbsent s.sp))

/-- R102: JP sets PC to its 12-bit target, zero-extended (30_encoding.md R73), and changes nothing else. -/
def Obligations.JumpGoesToItsTarget : Prop :=
  ∀ (nnn : BitVec 12) (s : State),
    decode (wordNnn 0x1 nnn) = .jp nnn ∧
    ∃ t, exec (.jp nnn) s = .next t ∧ t.pc.toNat = nnn.toNat ∧ ChangesOnly [.pc] s t

/-- R103, R163 (D5): CALL raises SP, stores the post-fetch PC in the new entry and jumps; with SP = 15 it raises
StackOverflow. With SP above 15, which no run reaches, the model stops by name (the model's choice, log entry 5). -/
def Obligations.CallPushesOrOverflows : Prop :=
  ∀ (nnn : BitVec 12) (s : State),
    decode (wordNnn 0x2 nnn) = .call nnn ∧
    (s.sp = 15 → TakesFault (.call nnn) .stackOverflow s) ∧
    (s.sp.toNat < 15 →
      ∃ t, exec (.call nnn) s = .next t ∧ t.pc.toNat = nnn.toNat ∧ t.sp.toNat = s.sp.toNat + 1 ∧
        (∀ k : Fin 16, t.stack.get k = if k.val = s.sp.toNat + 1 then s.pc else s.stack.get k) ∧
        ChangesOnly [.pc, .stack] s t) ∧
    (15 < s.sp.toNat → exec (.call nnn) s = .fault (.stackIndexAbsent s.sp))

/-- The document's round trip (95_test_vectors.md E5; R101, R103): a RET that finds the stack as a CALL left it continues at
the instruction after the CALL, with SP as before the CALL. -/
def Obligations.ReturnAfterCallComesBack : Prop :=
  ∀ (nnn : BitVec 12) (s t u : State), s.sp.toNat < 15 → exec (.call nnn) s = .next t → u.sp = t.sp → u.stack = t.stack →
    ∃ w, exec .ret u = .next w ∧ w.pc = s.pc ∧ w.sp = s.sp

/-- R104, R105, R100: the skips on an immediate add 2 to the post-fetch PC under their condition and change nothing else. -/
def Obligations.ImmediateSkips : Prop :=
  ∀ (x : Reg) (kk : Byte) (s : State),
    decode (wordXkk 0x3 x kk) = .seImm x kk ∧ decode (wordXkk 0x4 x kk) = .sneImm x kk ∧
    (∃ t, exec (.seImm x kk) s = .next t ∧ ChangesOnly [.pc] s t ∧
      t.pc.toNat = (s.pc.toNat + if (readReg s x).toNat = kk.toNat then 2 else 0) % 65536) ∧
    (∃ t, exec (.sneImm x kk) s = .next t ∧ ChangesOnly [.pc] s t ∧
      t.pc.toNat = (s.pc.toNat + if (readReg s x).toNat = kk.toNat then 0 else 2) % 65536)

/-- R106, R107, R100: the skips on two registers; with a low nibble other than 0 the word is none of them. That last clause
is the spec's decision D17 (log entry 17). -/
def Obligations.RegisterSkips : Prop :=
  ∀ (x y : Reg) (s : State),
    decode (wordXyn 0x5 x y 0) = .seReg x y ∧ decode (wordXyn 0x9 x y 0) = .sneReg x y ∧
    (∀ n, 0 < n → n < 16 → decode (wordXyn 0x5 x y n) = .unrecognised (wordXyn 0x5 x y n) ∧
      decode (wordXyn 0x9 x y n) = .unrecognised (wordXyn 0x9 x y n)) ∧
    (∃ t, exec (.seReg x y) s = .next t ∧ ChangesOnly [.pc] s t ∧
      t.pc.toNat = (s.pc.toNat + if (readReg s x).toNat = (readReg s y).toNat then 2 else 0) % 65536) ∧
    (∃ t, exec (.sneReg x y) s = .next t ∧ ChangesOnly [.pc] s t ∧
      t.pc.toNat = (s.pc.toNat + if (readReg s x).toNat = (readReg s y).toNat then 0 else 2) % 65536)

/-- R108: the jump with offset adds V0, whatever the field at bits 11 to 8, and the sum is not reduced modulo 4096. -/
def Obligations.OffsetJumpAddsV0 : Prop :=
  ∀ (nnn : BitVec 12) (s : State),
    decode (wordNnn 0xB nnn) = .jpV0 nnn ∧
    ∃ t, exec (.jpV0 nnn) s = .next t ∧ t.pc.toNat = (readReg s 0).toNat + nnn.toNat ∧ ChangesOnly [.pc] s t

/-! ### Register, arithmetic, logic (41_alu.md) -/

/-- R111, R113: load immediate and copy register. -/
def Obligations.RegisterLoads : Prop :=
  ∀ (x y : Reg) (kk : Byte) (s : State),
    decode (wordXkk 0x6 x kk) = .ldImm x kk ∧ decode (wordXyn 0x8 x y 0x0) = .ldReg x y ∧
    (∃ t, exec (.ldImm x kk) s = .next t ∧ readReg t x = kk ∧ SameRegsBut [x] s t ∧ ChangesOnly [.regs] s t) ∧
    (∃ t, exec (.ldReg x y) s = .next t ∧ readReg t x = readReg s y ∧ SameRegsBut [x] s t ∧ ChangesOnly [.regs] s t)

/-- R112: add immediate wraps modulo 256 and sets no flag. -/
def Obligations.AddImmediateWraps : Prop :=
  ∀ (x : Reg) (kk : Byte) (s : State),
    decode (wordXkk 0x7 x kk) = .addImm x kk ∧
    ∃ t, exec (.addImm x kk) s = .next t ∧ (readReg t x).toNat = ((readReg s x).toNat + kk.toNat) % 256 ∧
      SameRegsBut [x] s t ∧ ChangesOnly [.regs] s t

/-- R114, R115, R116: OR, AND and XOR act bit by bit and leave VF alone. -/
def Obligations.LogicIsBitwise : Prop :=
  ∀ (x y : Reg) (s : State),
    decode (wordXyn 0x8 x y 0x1) = .orReg x y ∧ decode (wordXyn 0x8 x y 0x2) = .andReg x y ∧
    decode (wordXyn 0x8 x y 0x3) = .xorReg x y ∧
    (∃ t, exec (.orReg x y) s = .next t ∧ SameRegsBut [x] s t ∧ ChangesOnly [.regs] s t ∧
      ∀ k, k < 8 → (readReg t x).getLsbD k = ((readReg s x).getLsbD k || (readReg s y).getLsbD k)) ∧
    (∃ t, exec (.andReg x y) s = .next t ∧ SameRegsBut [x] s t ∧ ChangesOnly [.regs] s t ∧
      ∀ k, k < 8 → (readReg t x).getLsbD k = ((readReg s x).getLsbD k && (readReg s y).getLsbD k)) ∧
    (∃ t, exec (.xorReg x y) s = .next t ∧ SameRegsBut [x] s t ∧ ChangesOnly [.regs] s t ∧
      ∀ k, k < 8 → (readReg t x).getLsbD k = xor ((readReg s x).getLsbD k) ((readReg s y).getLsbD k))

/-- R117: the sum modulo 256, and VF the carry; with x = 0xF the carry is written last and stands. What holds with x or
y = 0xF is the spec's decision D19 (log entry 15). -/
def Obligations.AddRegistersSetsCarry : Prop :=
  ∀ (x y : Reg) (s : State),
    decode (wordXyn 0x8 x y 0x4) = .addReg x y ∧
    ∃ t, exec (.addReg x y) s = .next t ∧
      (x ≠ 15 → (readReg t x).toNat = ((readReg s x).toNat + (readReg s y).toNat) % 256) ∧
      (readReg t 15).toNat = (if (readReg s x).toNat + (readReg s y).toNat > 255 then 1 else 0) ∧
      SameRegsBut [x, 15] s t ∧ ChangesOnly [.regs] s t

/-- R118: VF is the strict greater-than, written first, then the difference of the registers as they then stand. The clauses
with x or y = 0xF are the spec's decision D19. -/
def Obligations.SubtractSetsStrictGreater : Prop :=
  ∀ (x y : Reg) (s : State),
    decode (wordXyn 0x8 x y 0x5) = .subReg x y ∧
    ∃ t, exec (.subReg x y) s = .next t ∧ SameRegsBut [x, 15] s t ∧ ChangesOnly [.regs] s t ∧
      ∀ a b f : Nat, a = (readReg s x).toNat → b = (readReg s y).toNat → f = (if a > b then 1 else 0) →
        (x ≠ 15 → y ≠ 15 → (readReg t x).toNat = (a + 256 - b) % 256 ∧ (readReg t 15).toNat = f) ∧
        (x = 15 → y ≠ 15 → (readReg t 15).toNat = (f + 256 - b) % 256) ∧
        (x ≠ 15 → y = 15 → (readReg t x).toNat = (a + 256 - f) % 256 ∧ (readReg t 15).toNat = f) ∧
        (x = 15 → y = 15 → (readReg t 15).toNat = 0)

/-- R120: as R118 with the operands exchanged. The clauses with x or y = 0xF are the spec's decision D19. -/
def Obligations.ReverseSubtractSetsStrictGreater : Prop :=
  ∀ (x y : Reg) (s : State),
    decode (wordXyn 0x8 x y 0x7) = .subnReg x y ∧
    ∃ t, exec (.subnReg x y) s = .next t ∧ SameRegsBut [x, 15] s t ∧ ChangesOnly [.regs] s t ∧
      ∀ a b f : Nat, a = (readReg s x).toNat → b = (readReg s y).toNat → f = (if b > a then 1 else 0) →
        (x ≠ 15 → y ≠ 15 → (readReg t x).toNat = (b + 256 - a) % 256 ∧ (readReg t 15).toNat = f) ∧
        (x = 15 → y ≠ 15 → (readReg t 15).toNat = (b + 256 - f) % 256) ∧
        (x ≠ 15 → y = 15 → (readReg t x).toNat = (f + 256 - a) % 256 ∧ (readReg t 15).toNat = f) ∧
        (x = 15 → y = 15 → (readReg t 15).toNat = 0)

/-- R119, R78: Vx is halved and VF is the bit shifted out; `y` is ignored. The clause x = 0xF is the spec's decision D19. -/
def Obligations.ShiftRightHalves : Prop :=
  ∀ (x y : Reg) (s : State),
    decode (wordXyn 0x8 x y 0x6) = .shr x y ∧
    ∃ t, exec (.shr x y) s = .next t ∧ SameRegsBut [x, 15] s t ∧ ChangesOnly [.regs] s t ∧
      (x ≠ 15 → (readReg t x).toNat = (readReg s x).toNat / 2 ∧ (readReg t 15).toNat = (readReg s x).toNat % 2) ∧
      (x = 15 → (readReg t 15).toNat = 0)

/-- R121, R78: Vx is doubled modulo 256 and VF is bit 7; `y` is ignored. The clause x = 0xF is the spec's decision D19. -/
def Obligations.ShiftLeftDoubles : Prop :=
  ∀ (x y : Reg) (s : State),
    decode (wordXyn 0x8 x y 0xE) = .shl x y ∧
    ∃ t, exec (.shl x y) s = .next t ∧ SameRegsBut [x, 15] s t ∧ ChangesOnly [.regs] s t ∧
      (x ≠ 15 → (readReg t x).toNat = (readReg s x).toNat * 2 % 256 ∧ (readReg t 15).toNat = (readReg s x).toNat / 128) ∧
      (x = 15 → (readReg t 15).toNat = (readReg s x).toNat / 128 * 2)

/-- R122, R183 (D16): Vx is the next draw masked by kk. The draw is the next of the Tick's draws; with none left it is the
free value at the counter (the model's form of it, log entry 2), of which nothing is assumed. -/
def Obligations.RandomByteIsAMaskedDraw : Prop :=
  ∀ (x : Reg) (kk : Byte) (s : State),
    decode (wordXkk 0xC x kk) = .rnd x kk ∧
    ∃ t, exec (.rnd x kk) s = .next t ∧ SameRegsBut [x] s t ∧ ChangesOnly [.regs, .inputs] s t ∧ t.host = s.host ∧
      readReg t x &&& ~~~kk = 0 ∧
      (∀ d rest, s.draws = d :: rest →
        (∀ k, (readReg t x).getLsbD k = (d.getLsbD k && kk.getLsbD k)) ∧ t.draws = rest ∧ t.drawCount = s.drawCount) ∧
      (s.draws = [] →
        readReg t x = Config.freeDraw s.drawCount &&& kk ∧ t.draws = [] ∧ t.drawCount = s.drawCount + 1)

/-! ### Index register and memory transfer (42_index_memory.md) -/

/-- R130, R131, R132 (D4, D25 for the widths): I is loaded, added to modulo 65536 without a flag, or set to five times the
whole byte. -/
def Obligations.IndexRegisterInstructions : Prop :=
  ∀ (x : Reg) (nnn : BitVec 12) (s : State),
    decode (wordNnn 0xA nnn) = .ldI nnn ∧ decode (wordXkk 0xF x 0x1E) = .addI x ∧ decode (wordXkk 0xF x 0x29) = .ldF x ∧
    (∃ t, exec (.ldI nnn) s = .next t ∧ t.i.toNat = nnn.toNat ∧ ChangesOnly [.index] s t) ∧
    (∃ t, exec (.addI x) s = .next t ∧ t.i.toNat = (s.i.toNat + (readReg s x).toNat) % 65536 ∧ ChangesOnly [.index] s t) ∧
    (∃ t, exec (.ldF x) s = .next t ∧ t.i.toNat = (readReg s x).toNat * 5 ∧ ChangesOnly [.index] s t)

/-- R133, R162 (D1, D3): the three decimal digits, hundreds at I; out of range it raises MemFault and writes nothing. -/
def Obligations.BcdStoresThreeDigits : Prop :=
  ∀ (x : Reg) (s : State),
    decode (wordXkk 0xF x 0x33) = .ldB x ∧
    (Memory.wf s.mem = true → s.i.toNat + 2 ≤ 4095 →
      ∃ t, exec (.ldB x) s = .next t ∧ ChangesOnly [.memory] s t ∧ SameMemoryOutside (effectiveAddress s.i 0) 3 s t ∧
        (readByte t (effectiveAddress s.i 0)).toNat = (readReg s x).toNat / 100 ∧
        (readByte t (effectiveAddress s.i 1)).toNat = (readReg s x).toNat / 10 % 10 ∧
        (readByte t (effectiveAddress s.i 2)).toNat = (readReg s x).toNat % 10) ∧
    (4095 < s.i.toNat + 2 → TakesFault (.ldB x) (.memFault .write s.i 3) s)

/-- R134, R162 (D1, D3, D26): V0 to Vx go to I to I + x; I and the registers stay; out of range it raises MemFault and writes
nothing. -/
def Obligations.StoreRegistersWritesTheRange : Prop :=
  ∀ (x : Reg) (s : State),
    decode (wordXkk 0xF x 0x55) = .storeRegs x ∧
    (Memory.wf s.mem = true → s.i.toNat + x.val ≤ 4095 →
      ∃ t, exec (.storeRegs x) s = .next t ∧ ChangesOnly [.memory] s t ∧
        SameMemoryOutside (effectiveAddress s.i 0) (x.val + 1) s t ∧
        ∀ k : Reg, k ≤ x → readByte t (effectiveAddress s.i k.val) = readReg s k) ∧
    (4095 < s.i.toNat + x.val → TakesFault (.storeRegs x) (.memFault .write s.i (x.val + 1)) s)

/-- R135, R162 (D1, D3, D26): V0 to Vx come from I to I + x; memory, I and the registers above Vx stay; out of range it
raises MemFault and loads nothing. -/
def Obligations.LoadRegistersReadsTheRange : Prop :=
  ∀ (x : Reg) (s : State),
    decode (wordXkk 0xF x 0x65) = .loadRegs x ∧
    (s.i.toNat + x.val ≤ 4095 →
      ∃ t, exec (.loadRegs x) s = .next t ∧ ChangesOnly [.regs] s t ∧
        (∀ k : Reg, k ≤ x → readReg t k = readByte s (effectiveAddress s.i k.val)) ∧
        (∀ k : Reg, x < k → readReg t k = readReg s k)) ∧
    (4095 < s.i.toNat + x.val → TakesFault (.loadRegs x) (.memFault .read s.i (x.val + 1)) s)

/-- R134, R135: registers stored and loaded again from the same place are what they were. -/
def Obligations.LoadAfterStoreRestoresRegisters : Prop :=
  ∀ (x : Reg) (s t u : State), Memory.wf s.mem = true → s.i.toNat + x.val ≤ 4095 → exec (.storeRegs x) s = .next t →
    u.mem = t.mem → u.i = s.i →
    ∃ w, exec (.loadRegs x) u = .next w ∧ ∀ k : Reg, k ≤ x → readReg w k = readReg s k

/-! ### Display (43_display.md) -/

/-- R140: CLS turns every pixel off and changes nothing else. -/
def Obligations.ClearTurnsEveryPixelOff : Prop :=
  ∀ s : State, decode 0x00E0 = .cls ∧
    ∃ t, exec .cls s = .next t ∧ (∀ px py, pixelAt t.fb px py = false) ∧ ChangesOnly [.display] s t

/-- R141 to R144 (D1, D3; the collision rule is 90_conflicts.md C1): every pixel a sprite bit of 1 lands on, both coordinates
wrapped, is toggled, no other pixel changes, and VF is 1 exactly when such a pixel was lit; an empty sprite cannot fault. -/
def Obligations.DrawTogglesCoveredPixels : Prop :=
  ∀ (x y : Reg) (n : Fin 16) (s : State) (rows : List Byte) (sx sy : Nat),
    rows = (List.range n.val).map (fun k => readByte s (effectiveAddress s.i k)) →
    sx = (readReg s x).toNat → sy = (readReg s y).toNat →
    decode (wordXyn 0xD x y n.val) = .drw x y n ∧
    ((0 < n.val → s.i.toNat + n.val - 1 ≤ 4095) →
      ∃ t, exec (.drw x y n) s = .next t ∧ SameRegsBut [15] s t ∧ ChangesOnly [.regs, .display] s t ∧
        (∀ px py, px < 64 → py < 32 → Covers sx sy rows px py → pixelAt t.fb px py = !pixelAt s.fb px py) ∧
        (∀ px py, px < 64 → py < 32 → ¬ Covers sx sy rows px py → pixelAt t.fb px py = pixelAt s.fb px py) ∧
        ((∃ px py, Covers sx sy rows px py ∧ pixelAt s.fb px py = true) → readReg t 15 = 1) ∧
        ((∀ px py, Covers sx sy rows px py → pixelAt s.fb px py = false) → readReg t 15 = 0)) ∧
    (0 < n.val → 4095 < s.i.toNat + n.val - 1 → TakesFault (.drw x y n) (.memFault .read s.i n.val) s)

/-- R146: a second blit of the same sprite at the same place restores the pixels; the first collides exactly when a covered
pixel was lit, the second exactly when a covered pixel was off. -/
def Obligations.BlitIsItsOwnInverse : Prop :=
  ∀ (fb : Framebuffer) (sx sy : Nat) (rows : List Byte), rows.length ≤ 16 →
    (blit (blit fb sx sy rows).1 sx sy rows).1 = fb ∧
    ((blit fb sx sy rows).2 = true ↔ ∃ px py, Covers sx sy rows px py ∧ pixelAt fb px py = true) ∧
    ((blit (blit fb sx sy rows).1 sx sy rows).2 = true ↔ ∃ px py, Covers sx sy rows px py ∧ pixelAt fb px py = false)

/-! ### Keypad and timers (44_keypad_timer.md, 60_exceptions.md) -/

/-- R150, R151, R165 (D7): the key skips test the level of the key whose code is the whole byte Vx; a code above 15 raises
KeyCodeFault. -/
def Obligations.KeySkips : Prop :=
  ∀ (x : Reg) (s : State),
    decode (wordXkk 0xE x 0x9E) = .skp x ∧ decode (wordXkk 0xE x 0xA1) = .sknp x ∧
    (∀ k : KeyCode, (readReg s x).toNat = k.val →
      (∃ t, exec (.skp x) s = .next t ∧ ChangesOnly [.pc] s t ∧
        t.pc.toNat = (s.pc.toNat + if s.keys.get k = true then 2 else 0) % 65536) ∧
      (∃ t, exec (.sknp x) s = .next t ∧ ChangesOnly [.pc] s t ∧
        t.pc.toNat = (s.pc.toNat + if s.keys.get k = true then 0 else 2) % 65536)) ∧
    (15 < (readReg s x).toNat →
      TakesFault (.skp x) (.keyCodeFault (readReg s x)) s ∧ TakesFault (.sknp x) (.keyCodeFault (readReg s x)) s)

/-- R153: with no key down PC goes back to the instruction and nothing else changes; with keys down Vx receives one of them,
the lowest (R175; the spec's decision D8), and the keys stay. -/
def Obligations.KeyWaitRetriesOrTakesTheLowestKey : Prop :=
  ∀ (x : Reg) (s : State),
    decode (wordXkk 0xF x 0x0A) = .ldVxK x ∧
    ((∀ k : KeyCode, s.keys.get k = false) →
      ∃ t, exec (.ldVxK x) s = .next t ∧ t.pc + 2 = s.pc ∧ ChangesOnly [.pc] s t) ∧
    (∀ k : KeyCode, s.keys.get k = true → (∀ j : KeyCode, j < k → s.keys.get j = false) →
      ∃ t, exec (.ldVxK x) s = .next t ∧ (readReg t x).toNat = k.val ∧ SameRegsBut [x] s t ∧ ChangesOnly [.regs] s t)

/-- R152, R154, R155, R172 (D12 for the accumulators): the delay timer is read and set, the sound timer is set, and no
accumulator changes. -/
def Obligations.TimerInstructions : Prop :=
  ∀ (x : Reg) (s : State),
    decode (wordXkk 0xF x 0x07) = .ldVxDt x ∧ decode (wordXkk 0xF x 0x15) = .ldDtVx x ∧
    decode (wordXkk 0xF x 0x18) = .ldStVx x ∧
    (∃ t, exec (.ldVxDt x) s = .next t ∧ readReg t x = s.dt.count ∧ SameRegsBut [x] s t ∧ ChangesOnly [.regs] s t) ∧
    (∃ t, exec (.ldDtVx x) s = .next t ∧ t.dt.count = readReg s x ∧ t.dt.acc = s.dt.acc ∧ ChangesOnly [.delay] s t) ∧
    (∃ t, exec (.ldStVx x) s = .next t ∧ t.st.count = readReg s x ∧ t.st.acc = s.st.acc ∧ ChangesOnly [.sound] s t ∧
      (soundActive t = true ↔ 0 < (readReg s x).toNat))

/-- R173 (D10, D11): an idle timer drops its accumulated quanta; a running one makes one decrement per 25 quanta, as many as
are due, stops at 0, and keeps the rest. -/
def Obligations.TimerTickDecrementsOncePerPeriod : Prop :=
  ∀ (dt : Nat) (t : Timer),
    (t.count = 0 → timerTick dt t = ⟨0, 0⟩) ∧
    (t.count ≠ 0 → ∀ d, d = min t.count.toNat ((t.acc + dt) / 25) →
      (timerTick dt t).count.toNat = t.count.toNat - d ∧ (timerTick dt t).acc = t.acc + dt - 25 * d)

/-- R176, R177: a Tick that brings no cycle, because the CPU is stopped or less than one period is due, advances both timers
and, if the CPU is not stopped, its accumulator, and changes nothing else (the pending draws are the model's, entry 18).
StepPerformsThePendingTick says that a step with a Tick pending is this Tick. -/
def Obligations.TickWithoutACycle : Prop :=
  ∀ (dt : Nat) (draws : List Byte) (s : State),
    (∀ f, s.fault = some f →
      machineTick dt draws s = .next { s with dt := timerTick dt s.dt, st := timerTick dt s.st, draws := [] }) ∧
    (s.fault = none → s.cpuAcc + dt < Config.cpuPeriod →
      machineTick dt draws s =
        .next { s with dt := timerTick dt s.dt, st := timerTick dt s.st, cpuAcc := s.cpuAcc + dt, draws := [] })

/-- R176, R177 (D13, D14, D27): a Tick advances the timers and then runs every cycle that is due, one per period and no more,
and keeps the remainder; if a cycle faults the loop stops and the quanta of that cycle and the later ones stay.
StepPerformsThePendingTick says that a step with a Tick pending is this Tick. -/
def Obligations.TickRunsTheDueCycles : Prop :=
  ∀ (dt : Nat) (draws : List Byte) (s s0 u : State) (k : Nat), s.fault = none →
    s0 = { s with dt := timerTick dt s.dt, st := timerTick dt s.st, draws := draws } →
    runCycles k s0 = .next u → u.fault = none →
    (k = (s.cpuAcc + dt) / Config.cpuPeriod →
      machineTick dt draws s = .next { u with cpuAcc := (s.cpuAcc + dt) % Config.cpuPeriod, draws := [] }) ∧
    (∀ w f, k < (s.cpuAcc + dt) / Config.cpuPeriod → cpuCycle u = .next w → w.fault = some f →
      machineTick dt draws s = .next { w with cpuAcc := s.cpuAcc + dt - k * Config.cpuPeriod, draws := [] })

/-- R207: what the CPU does with a stretch of time does not depend on how the stretch is split into calls. -/
def Obligations.CpuTimeMayBeSplit : Prop :=
  ∀ (a b : Nat) (s t : State), cpuTick a s = .next t → t.fault = none → cpuTick (a + b) s = cpuTick b t

/-- R174: key events add and remove one key of the pressed set, are idempotent in effect, and change nothing else. -/
def Obligations.KeyEventsChangeOneKey : Prop :=
  ∀ (code : KeyCode) (rest : List HostOp) (s : State),
    (s.host = .keyDown code :: rest →
      ∃ t, step s = .next t ∧ t.host = rest ∧ t.draws = s.draws ∧ t.drawCount = s.drawCount ∧
        (∀ k : KeyCode, t.keys.get k = (s.keys.get k || decide (k = code))) ∧ ChangesOnly [.keys, .inputs] s t) ∧
    (s.host = .keyUp code :: rest →
      ∃ t, step s = .next t ∧ t.host = rest ∧ t.draws = s.draws ∧ t.drawCount = s.drawCount ∧
        (∀ k : KeyCode, t.keys.get k = (s.keys.get k && decide (k ≠ code))) ∧ ChangesOnly [.keys, .inputs] s t)

/-- R175 (D8): GetKeyPress is not ready exactly when no key is down, and otherwise gives the smallest key down. -/
def Obligations.PickKeyIsTheSmallestDown : Prop :=
  ∀ keys : Vector Bool 16,
    (pickKey keys = none ↔ ∀ k : KeyCode, keys.get k = false) ∧
    (∀ k : KeyCode, pickKey keys = some k ↔ keys.get k = true ∧ ∀ j : KeyCode, j < k → keys.get j = false)

/-- R38, R190, R191 (the values of the display, keys, timers, accumulators, latch and the rest of memory are the spec's
decision D15): after Reset every piece of state has its reset value, the font and the ROM are in memory; a ROM that R191
excludes is refused (log entry 9). The model's own inputs stay (log entry 16). -/
def Obligations.ResetSetsEveryPieceOfState : Prop :=
  ∀ (rom : List Byte) (rest : List HostOp) (s : State), s.host = .reset rom :: rest →
    (rom.length ≤ 3584 → rom.length % 2 = 0 →
      ∃ t, step s = .next t ∧ (∀ r, readReg t r = 0) ∧ t.i = 0 ∧ t.pc = 0x200 ∧ t.sp = 0 ∧
        (∀ j : Fin 16, t.stack.get j = 0) ∧
        (∀ a, a < 0x50 → some (readByte t a) = Config.font[a]?) ∧
        (∀ a, 0x50 ≤ a → a < 0x200 → readByte t a = 0) ∧
        (∀ k, k < rom.length → some (readByte t (0x200 + k)) = rom[k]?) ∧
        (∀ a, 0x200 + rom.length ≤ a → readByte t a = 0) ∧
        (∀ px py, pixelAt t.fb px py = false) ∧ (∀ k : KeyCode, t.keys.get k = false) ∧
        t.dt = ⟨0, 0⟩ ∧ t.st = ⟨0, 0⟩ ∧ t.cpuAcc = 0 ∧ t.fault = none ∧
        t.host = rest ∧ t.draws = s.draws ∧ t.drawCount = s.drawCount) ∧
    (3584 < rom.length ∨ rom.length % 2 = 1 → step s = .refused (.romRejected rom.length))

/-- R178, R179, R180: what the host reads: the pixels, whether the sound timer is above 0, the latch. -/
def Obligations.HostReadsTheState : Prop :=
  ∀ s : State,
    (∀ px py, pixelAt (framebuffer s) px py = pixelAt s.fb px py) ∧
    (soundActive s = true ↔ 0 < s.st.count.toNat) ∧ faultStatus s = s.fault

/-- R176, R177 (log entries 3 and 19): a step with a Tick pending answers what `machineTick` answers, with the same dt and
draws, once the Tick has left the pending list; and no Tick, however many cycles it runs, changes the keys or what the host
does afterwards (R181, R205). That none of the Tick's draws is left is log entry 18. -/
def Obligations.StepPerformsThePendingTick : Prop :=
  ∀ (dt : Nat) (draws : List Byte) (rest : List HostOp) (s : State), s.host = .tick dt draws :: rest →
    step s = machineTick dt draws { s with host := rest } ∧
    ∀ t, step s = .next t → t.host = rest ∧ t.draws = [] ∧ t.keys = s.keys
end

