-- ==== Sys2Proof/Laws/Decode.lean ====
section
/-!
SUPPORT. The fields of encoded words (spec 30_encoding.md R71, R72): decoding's field readers undo the three formats.
-/

namespace Sys2Proof

theorem fieldM_toNat (op : Word) : (fieldM op).toNat = op.toNat / 4096 % 16 := by
  simp [fieldM, BitVec.extractLsb'_toNat, Nat.shiftRight_eq_div_pow]

theorem fieldX_val (op : Word) : (fieldX op).val = op.toNat / 256 % 16 := by
  simp [fieldX, BitVec.extractLsb', Nat.shiftRight_eq_div_pow]

theorem fieldY_val (op : Word) : (fieldY op).val = op.toNat / 16 % 16 := by
  simp [fieldY, BitVec.extractLsb', Nat.shiftRight_eq_div_pow]

theorem fieldN_val (op : Word) : (fieldN op).val = op.toNat % 16 := by
  simp [fieldN, BitVec.extractLsb']

theorem fieldKk_toNat (op : Word) : (fieldKk op).toNat = op.toNat % 256 := by
  simp [fieldKk, BitVec.extractLsb'_toNat]

theorem fieldNnn_toNat (op : Word) : (fieldNnn op).toNat = op.toNat % 4096 := by
  simp [fieldNnn, BitVec.extractLsb'_toNat]

theorem encodeNnn_toNat (m : BitVec 4) (nnn : BitVec 12) : (encodeNnn m nnn).toNat = m.toNat * 4096 + nnn.toNat := by
  have := nnn.isLt
  rw [encodeNnn, BitVec.toNat_append, ← Nat.shiftLeft_add_eq_or_of_lt (by omega), Nat.shiftLeft_eq]

theorem encodeXkk_toNat (m : BitVec 4) (x : Reg) (kk : Byte) :
    (encodeXkk m x kk).toNat = m.toNat * 4096 + x.val * 256 + kk.toNat := by
  have := kk.isLt
  have := x.isLt
  have e : (m ++ nibble x).toNat = m.toNat * 16 + x.val := by
    rw [BitVec.toNat_append, ← Nat.shiftLeft_add_eq_or_of_lt (nibble x).isLt, Nat.shiftLeft_eq]; rfl
  rw [encodeXkk, BitVec.toNat_append, ← Nat.shiftLeft_add_eq_or_of_lt (by omega), Nat.shiftLeft_eq, e]
  omega

theorem encodeXyn_toNat (m : BitVec 4) (x y : Reg) (n : BitVec 4) :
    (encodeXyn m x y n).toNat = m.toNat * 4096 + x.val * 256 + y.val * 16 + n.toNat := by
  have e : ∀ (a : BitVec 4) (b : BitVec 4), (a ++ b).toNat = a.toNat * 16 + b.toNat := by
    intro a b
    rw [BitVec.toNat_append, ← Nat.shiftLeft_add_eq_or_of_lt b.isLt, Nat.shiftLeft_eq]
  rw [encodeXyn, BitVec.toNat_append, ← Nat.shiftLeft_add_eq_or_of_lt (nibble y ++ n).isLt, Nat.shiftLeft_eq, e, e]
  have : (nibble x).toNat = x.val := rfl
  have : (nibble y).toNat = y.val := rfl
  omega

/-- The fields of a word in format NNN. -/
theorem fields_encodeNnn (m : BitVec 4) (nnn : BitVec 12) :
    fieldM (encodeNnn m nnn) = m ∧ fieldNnn (encodeNnn m nnn) = nnn := by
  have := m.isLt
  have := nnn.isLt
  constructor
  · apply BitVec.eq_of_toNat_eq; rw [fieldM_toNat, encodeNnn_toNat]; omega
  · apply BitVec.eq_of_toNat_eq; rw [fieldNnn_toNat, encodeNnn_toNat]; omega

/-- The fields of a word in format XKK. -/
theorem fields_encodeXkk (m : BitVec 4) (x : Reg) (kk : Byte) :
    fieldM (encodeXkk m x kk) = m ∧ fieldX (encodeXkk m x kk) = x ∧ fieldKk (encodeXkk m x kk) = kk := by
  have := m.isLt
  have := kk.isLt
  have := x.isLt
  refine ⟨?_, ?_, ?_⟩
  · apply BitVec.eq_of_toNat_eq; rw [fieldM_toNat, encodeXkk_toNat]; omega
  · apply Fin.ext; rw [fieldX_val, encodeXkk_toNat]; omega
  · apply BitVec.eq_of_toNat_eq; rw [fieldKk_toNat, encodeXkk_toNat]; omega

/-- The fields of a word in formats XY and XYN. -/
theorem fields_encodeXyn (m : BitVec 4) (x y : Reg) (n : BitVec 4) :
    fieldM (encodeXyn m x y n) = m ∧ fieldX (encodeXyn m x y n) = x ∧ fieldY (encodeXyn m x y n) = y ∧
    fieldN (encodeXyn m x y n) = n.toFin := by
  have := m.isLt
  have := n.isLt
  have := x.isLt
  have := y.isLt
  have hn : n.toFin.val = n.toNat := rfl
  refine ⟨?_, ?_, ?_, ?_⟩
  · apply BitVec.eq_of_toNat_eq; rw [fieldM_toNat, encodeXyn_toNat]; omega
  · apply Fin.ext; rw [fieldX_val, encodeXyn_toNat]; omega
  · apply Fin.ext; rw [fieldY_val, encodeXyn_toNat]; omega
  · apply Fin.ext; rw [fieldN_val, encodeXyn_toNat, hn]; omega

/-- The word of two bytes, on naturals (R70). -/
theorem wordOfBytes_toNat (b0 b1 : Byte) : (wordOfBytes b0 b1).toNat = b0.toNat * 256 + b1.toNat := by
  rw [wordOfBytes, BitVec.toNat_append, ← Nat.shiftLeft_add_eq_or_of_lt b1.isLt, Nat.shiftLeft_eq]

end Sys2Proof
end

