-- ==== Sys2Proof/Laws/State.lean ====
section
/-!
SUPPORT. One lemma per field and update of the state: what a named operation leaves alone, and what it sets. No later proof
unfolds a record update.
-/

namespace Sys2Proof.Machine

/-! ### writeReg -/

@[simp] theorem writeReg_i (s : State) (x : Reg) (b : Byte) : (writeReg s x b).i = s.i := rfl
@[simp] theorem writeReg_pc (s : State) (x : Reg) (b : Byte) : (writeReg s x b).pc = s.pc := rfl
@[simp] theorem writeReg_sp (s : State) (x : Reg) (b : Byte) : (writeReg s x b).sp = s.sp := rfl
@[simp] theorem writeReg_stack (s : State) (x : Reg) (b : Byte) : (writeReg s x b).stack = s.stack := rfl
@[simp] theorem writeReg_mem (s : State) (x : Reg) (b : Byte) : (writeReg s x b).mem = s.mem := rfl
@[simp] theorem writeReg_fb (s : State) (x : Reg) (b : Byte) : (writeReg s x b).fb = s.fb := rfl
@[simp] theorem writeReg_keys (s : State) (x : Reg) (b : Byte) : (writeReg s x b).keys = s.keys := rfl
@[simp] theorem writeReg_dt (s : State) (x : Reg) (b : Byte) : (writeReg s x b).dt = s.dt := rfl
@[simp] theorem writeReg_st (s : State) (x : Reg) (b : Byte) : (writeReg s x b).st = s.st := rfl
@[simp] theorem writeReg_cpuAcc (s : State) (x : Reg) (b : Byte) : (writeReg s x b).cpuAcc = s.cpuAcc := rfl
@[simp] theorem writeReg_fault (s : State) (x : Reg) (b : Byte) : (writeReg s x b).fault = s.fault := rfl
@[simp] theorem writeReg_draws (s : State) (x : Reg) (b : Byte) : (writeReg s x b).draws = s.draws := rfl
@[simp] theorem writeReg_drawCount (s : State) (x : Reg) (b : Byte) : (writeReg s x b).drawCount = s.drawCount := rfl
@[simp] theorem writeReg_host (s : State) (x : Reg) (b : Byte) : (writeReg s x b).host = s.host := rfl

/-! ### writeByte -/

@[simp] theorem writeByte_v (s : State) (a : Nat) (b : Byte) : (writeByte s a b).v = s.v := rfl
@[simp] theorem writeByte_i (s : State) (a : Nat) (b : Byte) : (writeByte s a b).i = s.i := rfl
@[simp] theorem writeByte_pc (s : State) (a : Nat) (b : Byte) : (writeByte s a b).pc = s.pc := rfl
@[simp] theorem writeByte_sp (s : State) (a : Nat) (b : Byte) : (writeByte s a b).sp = s.sp := rfl
@[simp] theorem writeByte_stack (s : State) (a : Nat) (b : Byte) : (writeByte s a b).stack = s.stack := rfl
@[simp] theorem writeByte_fb (s : State) (a : Nat) (b : Byte) : (writeByte s a b).fb = s.fb := rfl
@[simp] theorem writeByte_keys (s : State) (a : Nat) (b : Byte) : (writeByte s a b).keys = s.keys := rfl
@[simp] theorem writeByte_dt (s : State) (a : Nat) (b : Byte) : (writeByte s a b).dt = s.dt := rfl
@[simp] theorem writeByte_st (s : State) (a : Nat) (b : Byte) : (writeByte s a b).st = s.st := rfl
@[simp] theorem writeByte_cpuAcc (s : State) (a : Nat) (b : Byte) : (writeByte s a b).cpuAcc = s.cpuAcc := rfl
@[simp] theorem writeByte_fault (s : State) (a : Nat) (b : Byte) : (writeByte s a b).fault = s.fault := rfl
@[simp] theorem writeByte_draws (s : State) (a : Nat) (b : Byte) : (writeByte s a b).draws = s.draws := rfl
@[simp] theorem writeByte_drawCount (s : State) (a : Nat) (b : Byte) : (writeByte s a b).drawCount = s.drawCount := rfl
@[simp] theorem writeByte_host (s : State) (a : Nat) (b : Byte) : (writeByte s a b).host = s.host := rfl

/-! ### loadRegsFrom -/

@[simp] theorem loadRegsFrom_i (s : State) (base : Word) (x : Reg) : (loadRegsFrom s base x).i = s.i := rfl
@[simp] theorem loadRegsFrom_pc (s : State) (base : Word) (x : Reg) : (loadRegsFrom s base x).pc = s.pc := rfl
@[simp] theorem loadRegsFrom_sp (s : State) (base : Word) (x : Reg) : (loadRegsFrom s base x).sp = s.sp := rfl
@[simp] theorem loadRegsFrom_stack (s : State) (base : Word) (x : Reg) : (loadRegsFrom s base x).stack = s.stack := rfl
@[simp] theorem loadRegsFrom_mem (s : State) (base : Word) (x : Reg) : (loadRegsFrom s base x).mem = s.mem := rfl
@[simp] theorem loadRegsFrom_fb (s : State) (base : Word) (x : Reg) : (loadRegsFrom s base x).fb = s.fb := rfl
@[simp] theorem loadRegsFrom_keys (s : State) (base : Word) (x : Reg) : (loadRegsFrom s base x).keys = s.keys := rfl
@[simp] theorem loadRegsFrom_dt (s : State) (base : Word) (x : Reg) : (loadRegsFrom s base x).dt = s.dt := rfl
@[simp] theorem loadRegsFrom_st (s : State) (base : Word) (x : Reg) : (loadRegsFrom s base x).st = s.st := rfl
@[simp] theorem loadRegsFrom_cpuAcc (s : State) (base : Word) (x : Reg) : (loadRegsFrom s base x).cpuAcc = s.cpuAcc := rfl
@[simp] theorem loadRegsFrom_fault (s : State) (base : Word) (x : Reg) : (loadRegsFrom s base x).fault = s.fault := rfl
@[simp] theorem loadRegsFrom_draws (s : State) (base : Word) (x : Reg) : (loadRegsFrom s base x).draws = s.draws := rfl
@[simp] theorem loadRegsFrom_drawCount (s : State) (base : Word) (x : Reg) : (loadRegsFrom s base x).drawCount = s.drawCount := rfl
@[simp] theorem loadRegsFrom_host (s : State) (base : Word) (x : Reg) : (loadRegsFrom s base x).host = s.host := rfl

/-! ### push -/

@[simp] theorem push_v (s : State) (w : Word) : (push s w).v = s.v := rfl
@[simp] theorem push_i (s : State) (w : Word) : (push s w).i = s.i := rfl
@[simp] theorem push_pc (s : State) (w : Word) : (push s w).pc = s.pc := rfl
@[simp] theorem push_mem (s : State) (w : Word) : (push s w).mem = s.mem := rfl
@[simp] theorem push_fb (s : State) (w : Word) : (push s w).fb = s.fb := rfl
@[simp] theorem push_keys (s : State) (w : Word) : (push s w).keys = s.keys := rfl
@[simp] theorem push_dt (s : State) (w : Word) : (push s w).dt = s.dt := rfl
@[simp] theorem push_st (s : State) (w : Word) : (push s w).st = s.st := rfl
@[simp] theorem push_cpuAcc (s : State) (w : Word) : (push s w).cpuAcc = s.cpuAcc := rfl
@[simp] theorem push_fault (s : State) (w : Word) : (push s w).fault = s.fault := rfl
@[simp] theorem push_draws (s : State) (w : Word) : (push s w).draws = s.draws := rfl
@[simp] theorem push_drawCount (s : State) (w : Word) : (push s w).drawCount = s.drawCount := rfl
@[simp] theorem push_host (s : State) (w : Word) : (push s w).host = s.host := rfl

/-! ### takeFault -/

@[simp] theorem takeFault_v (pc0 : Word) (f : FaultRecord) (s : State) : (takeFault pc0 f s).v = s.v := rfl
@[simp] theorem takeFault_i (pc0 : Word) (f : FaultRecord) (s : State) : (takeFault pc0 f s).i = s.i := rfl
@[simp] theorem takeFault_sp (pc0 : Word) (f : FaultRecord) (s : State) : (takeFault pc0 f s).sp = s.sp := rfl
@[simp] theorem takeFault_stack (pc0 : Word) (f : FaultRecord) (s : State) : (takeFault pc0 f s).stack = s.stack := rfl
@[simp] theorem takeFault_mem (pc0 : Word) (f : FaultRecord) (s : State) : (takeFault pc0 f s).mem = s.mem := rfl
@[simp] theorem takeFault_fb (pc0 : Word) (f : FaultRecord) (s : State) : (takeFault pc0 f s).fb = s.fb := rfl
@[simp] theorem takeFault_keys (pc0 : Word) (f : FaultRecord) (s : State) : (takeFault pc0 f s).keys = s.keys := rfl
@[simp] theorem takeFault_dt (pc0 : Word) (f : FaultRecord) (s : State) : (takeFault pc0 f s).dt = s.dt := rfl
@[simp] theorem takeFault_st (pc0 : Word) (f : FaultRecord) (s : State) : (takeFault pc0 f s).st = s.st := rfl
@[simp] theorem takeFault_cpuAcc (pc0 : Word) (f : FaultRecord) (s : State) : (takeFault pc0 f s).cpuAcc = s.cpuAcc := rfl
@[simp] theorem takeFault_draws (pc0 : Word) (f : FaultRecord) (s : State) : (takeFault pc0 f s).draws = s.draws := rfl
@[simp] theorem takeFault_drawCount (pc0 : Word) (f : FaultRecord) (s : State) : (takeFault pc0 f s).drawCount = s.drawCount := rfl
@[simp] theorem takeFault_host (pc0 : Word) (f : FaultRecord) (s : State) : (takeFault pc0 f s).host = s.host := rfl

/-! ### afterFetch -/

@[simp] theorem afterFetch_v (s : State) : (afterFetch s).v = s.v := rfl
@[simp] theorem afterFetch_i (s : State) : (afterFetch s).i = s.i := rfl
@[simp] theorem afterFetch_sp (s : State) : (afterFetch s).sp = s.sp := rfl
@[simp] theorem afterFetch_stack (s : State) : (afterFetch s).stack = s.stack := rfl
@[simp] theorem afterFetch_mem (s : State) : (afterFetch s).mem = s.mem := rfl
@[simp] theorem afterFetch_fb (s : State) : (afterFetch s).fb = s.fb := rfl
@[simp] theorem afterFetch_keys (s : State) : (afterFetch s).keys = s.keys := rfl
@[simp] theorem afterFetch_dt (s : State) : (afterFetch s).dt = s.dt := rfl
@[simp] theorem afterFetch_st (s : State) : (afterFetch s).st = s.st := rfl
@[simp] theorem afterFetch_cpuAcc (s : State) : (afterFetch s).cpuAcc = s.cpuAcc := rfl
@[simp] theorem afterFetch_fault (s : State) : (afterFetch s).fault = s.fault := rfl
@[simp] theorem afterFetch_draws (s : State) : (afterFetch s).draws = s.draws := rfl
@[simp] theorem afterFetch_drawCount (s : State) : (afterFetch s).drawCount = s.drawCount := rfl
@[simp] theorem afterFetch_host (s : State) : (afterFetch s).host = s.host := rfl

/-! ### keyDown -/

@[simp] theorem keyDown_v (code : KeyCode) (s : State) : (keyDown code s).v = s.v := rfl
@[simp] theorem keyDown_i (code : KeyCode) (s : State) : (keyDown code s).i = s.i := rfl
@[simp] theorem keyDown_pc (code : KeyCode) (s : State) : (keyDown code s).pc = s.pc := rfl
@[simp] theorem keyDown_sp (code : KeyCode) (s : State) : (keyDown code s).sp = s.sp := rfl
@[simp] theorem keyDown_stack (code : KeyCode) (s : State) : (keyDown code s).stack = s.stack := rfl
@[simp] theorem keyDown_mem (code : KeyCode) (s : State) : (keyDown code s).mem = s.mem := rfl
@[simp] theorem keyDown_fb (code : KeyCode) (s : State) : (keyDown code s).fb = s.fb := rfl
@[simp] theorem keyDown_dt (code : KeyCode) (s : State) : (keyDown code s).dt = s.dt := rfl
@[simp] theorem keyDown_st (code : KeyCode) (s : State) : (keyDown code s).st = s.st := rfl
@[simp] theorem keyDown_cpuAcc (code : KeyCode) (s : State) : (keyDown code s).cpuAcc = s.cpuAcc := rfl
@[simp] theorem keyDown_fault (code : KeyCode) (s : State) : (keyDown code s).fault = s.fault := rfl
@[simp] theorem keyDown_draws (code : KeyCode) (s : State) : (keyDown code s).draws = s.draws := rfl
@[simp] theorem keyDown_drawCount (code : KeyCode) (s : State) : (keyDown code s).drawCount = s.drawCount := rfl
@[simp] theorem keyDown_host (code : KeyCode) (s : State) : (keyDown code s).host = s.host := rfl

/-! ### keyUp -/

@[simp] theorem keyUp_v (code : KeyCode) (s : State) : (keyUp code s).v = s.v := rfl
@[simp] theorem keyUp_i (code : KeyCode) (s : State) : (keyUp code s).i = s.i := rfl
@[simp] theorem keyUp_pc (code : KeyCode) (s : State) : (keyUp code s).pc = s.pc := rfl
@[simp] theorem keyUp_sp (code : KeyCode) (s : State) : (keyUp code s).sp = s.sp := rfl
@[simp] theorem keyUp_stack (code : KeyCode) (s : State) : (keyUp code s).stack = s.stack := rfl
@[simp] theorem keyUp_mem (code : KeyCode) (s : State) : (keyUp code s).mem = s.mem := rfl
@[simp] theorem keyUp_fb (code : KeyCode) (s : State) : (keyUp code s).fb = s.fb := rfl
@[simp] theorem keyUp_dt (code : KeyCode) (s : State) : (keyUp code s).dt = s.dt := rfl
@[simp] theorem keyUp_st (code : KeyCode) (s : State) : (keyUp code s).st = s.st := rfl
@[simp] theorem keyUp_cpuAcc (code : KeyCode) (s : State) : (keyUp code s).cpuAcc = s.cpuAcc := rfl
@[simp] theorem keyUp_fault (code : KeyCode) (s : State) : (keyUp code s).fault = s.fault := rfl
@[simp] theorem keyUp_draws (code : KeyCode) (s : State) : (keyUp code s).draws = s.draws := rfl
@[simp] theorem keyUp_drawCount (code : KeyCode) (s : State) : (keyUp code s).drawCount = s.drawCount := rfl
@[simp] theorem keyUp_host (code : KeyCode) (s : State) : (keyUp code s).host = s.host := rfl

/-! ### tickTimers -/

@[simp] theorem tickTimers_v (dt : Nat) (draws : List Byte) (s : State) : (tickTimers dt draws s).v = s.v := rfl
@[simp] theorem tickTimers_i (dt : Nat) (draws : List Byte) (s : State) : (tickTimers dt draws s).i = s.i := rfl
@[simp] theorem tickTimers_pc (dt : Nat) (draws : List Byte) (s : State) : (tickTimers dt draws s).pc = s.pc := rfl
@[simp] theorem tickTimers_sp (dt : Nat) (draws : List Byte) (s : State) : (tickTimers dt draws s).sp = s.sp := rfl
@[simp] theorem tickTimers_stack (dt : Nat) (draws : List Byte) (s : State) : (tickTimers dt draws s).stack = s.stack := rfl
@[simp] theorem tickTimers_mem (dt : Nat) (draws : List Byte) (s : State) : (tickTimers dt draws s).mem = s.mem := rfl
@[simp] theorem tickTimers_fb (dt : Nat) (draws : List Byte) (s : State) : (tickTimers dt draws s).fb = s.fb := rfl
@[simp] theorem tickTimers_keys (dt : Nat) (draws : List Byte) (s : State) : (tickTimers dt draws s).keys = s.keys := rfl
@[simp] theorem tickTimers_cpuAcc (dt : Nat) (draws : List Byte) (s : State) : (tickTimers dt draws s).cpuAcc = s.cpuAcc := rfl
@[simp] theorem tickTimers_fault (dt : Nat) (draws : List Byte) (s : State) : (tickTimers dt draws s).fault = s.fault := rfl
@[simp] theorem tickTimers_drawCount (dt : Nat) (draws : List Byte) (s : State) : (tickTimers dt draws s).drawCount = s.drawCount := rfl
@[simp] theorem tickTimers_host (dt : Nat) (draws : List Byte) (s : State) : (tickTimers dt draws s).host = s.host := rfl

/-! ### skipIf -/

@[simp] theorem skipIf_v (c : Bool) (s : State) : (skipIf c s).v = s.v := by cases c <;> rfl
@[simp] theorem skipIf_i (c : Bool) (s : State) : (skipIf c s).i = s.i := by cases c <;> rfl
@[simp] theorem skipIf_sp (c : Bool) (s : State) : (skipIf c s).sp = s.sp := by cases c <;> rfl
@[simp] theorem skipIf_stack (c : Bool) (s : State) : (skipIf c s).stack = s.stack := by cases c <;> rfl
@[simp] theorem skipIf_mem (c : Bool) (s : State) : (skipIf c s).mem = s.mem := by cases c <;> rfl
@[simp] theorem skipIf_fb (c : Bool) (s : State) : (skipIf c s).fb = s.fb := by cases c <;> rfl
@[simp] theorem skipIf_keys (c : Bool) (s : State) : (skipIf c s).keys = s.keys := by cases c <;> rfl
@[simp] theorem skipIf_dt (c : Bool) (s : State) : (skipIf c s).dt = s.dt := by cases c <;> rfl
@[simp] theorem skipIf_st (c : Bool) (s : State) : (skipIf c s).st = s.st := by cases c <;> rfl
@[simp] theorem skipIf_cpuAcc (c : Bool) (s : State) : (skipIf c s).cpuAcc = s.cpuAcc := by cases c <;> rfl
@[simp] theorem skipIf_fault (c : Bool) (s : State) : (skipIf c s).fault = s.fault := by cases c <;> rfl
@[simp] theorem skipIf_draws (c : Bool) (s : State) : (skipIf c s).draws = s.draws := by cases c <;> rfl
@[simp] theorem skipIf_drawCount (c : Bool) (s : State) : (skipIf c s).drawCount = s.drawCount := by cases c <;> rfl
@[simp] theorem skipIf_host (c : Bool) (s : State) : (skipIf c s).host = s.host := by cases c <;> rfl

/-! ### takeDraw -/

@[simp] theorem takeDraw_v (s : State) : ((takeDraw s).2).v = s.v := by unfold takeDraw; split <;> rfl
@[simp] theorem takeDraw_i (s : State) : ((takeDraw s).2).i = s.i := by unfold takeDraw; split <;> rfl
@[simp] theorem takeDraw_pc (s : State) : ((takeDraw s).2).pc = s.pc := by unfold takeDraw; split <;> rfl
@[simp] theorem takeDraw_sp (s : State) : ((takeDraw s).2).sp = s.sp := by unfold takeDraw; split <;> rfl
@[simp] theorem takeDraw_stack (s : State) : ((takeDraw s).2).stack = s.stack := by unfold takeDraw; split <;> rfl
@[simp] theorem takeDraw_mem (s : State) : ((takeDraw s).2).mem = s.mem := by unfold takeDraw; split <;> rfl
@[simp] theorem takeDraw_fb (s : State) : ((takeDraw s).2).fb = s.fb := by unfold takeDraw; split <;> rfl
@[simp] theorem takeDraw_keys (s : State) : ((takeDraw s).2).keys = s.keys := by unfold takeDraw; split <;> rfl
@[simp] theorem takeDraw_dt (s : State) : ((takeDraw s).2).dt = s.dt := by unfold takeDraw; split <;> rfl
@[simp] theorem takeDraw_st (s : State) : ((takeDraw s).2).st = s.st := by unfold takeDraw; split <;> rfl
@[simp] theorem takeDraw_cpuAcc (s : State) : ((takeDraw s).2).cpuAcc = s.cpuAcc := by unfold takeDraw; split <;> rfl
@[simp] theorem takeDraw_fault (s : State) : ((takeDraw s).2).fault = s.fault := by unfold takeDraw; split <;> rfl
@[simp] theorem takeDraw_host (s : State) : ((takeDraw s).2).host = s.host := by unfold takeDraw; split <;> rfl

/-! ### writeRange -/

@[simp] theorem writeRange_v (s : State) (base : Nat) (bs : List Byte) : (writeRange s base bs).v = s.v := by
  induction bs generalizing s base with
  | nil => rfl
  | cons b rest ih => rw [writeRange, ih]; rfl
@[simp] theorem writeRange_i (s : State) (base : Nat) (bs : List Byte) : (writeRange s base bs).i = s.i := by
  induction bs generalizing s base with
  | nil => rfl
  | cons b rest ih => rw [writeRange, ih]; rfl
@[simp] theorem writeRange_pc (s : State) (base : Nat) (bs : List Byte) : (writeRange s base bs).pc = s.pc := by
  induction bs generalizing s base with
  | nil => rfl
  | cons b rest ih => rw [writeRange, ih]; rfl
@[simp] theorem writeRange_sp (s : State) (base : Nat) (bs : List Byte) : (writeRange s base bs).sp = s.sp := by
  induction bs generalizing s base with
  | nil => rfl
  | cons b rest ih => rw [writeRange, ih]; rfl
@[simp] theorem writeRange_stack (s : State) (base : Nat) (bs : List Byte) : (writeRange s base bs).stack = s.stack := by
  induction bs generalizing s base with
  | nil => rfl
  | cons b rest ih => rw [writeRange, ih]; rfl
@[simp] theorem writeRange_fb (s : State) (base : Nat) (bs : List Byte) : (writeRange s base bs).fb = s.fb := by
  induction bs generalizing s base with
  | nil => rfl
  | cons b rest ih => rw [writeRange, ih]; rfl
@[simp] theorem writeRange_keys (s : State) (base : Nat) (bs : List Byte) : (writeRange s base bs).keys = s.keys := by
  induction bs generalizing s base with
  | nil => rfl
  | cons b rest ih => rw [writeRange, ih]; rfl
@[simp] theorem writeRange_dt (s : State) (base : Nat) (bs : List Byte) : (writeRange s base bs).dt = s.dt := by
  induction bs generalizing s base with
  | nil => rfl
  | cons b rest ih => rw [writeRange, ih]; rfl
@[simp] theorem writeRange_st (s : State) (base : Nat) (bs : List Byte) : (writeRange s base bs).st = s.st := by
  induction bs generalizing s base with
  | nil => rfl
  | cons b rest ih => rw [writeRange, ih]; rfl
@[simp] theorem writeRange_cpuAcc (s : State) (base : Nat) (bs : List Byte) : (writeRange s base bs).cpuAcc = s.cpuAcc := by
  induction bs generalizing s base with
  | nil => rfl
  | cons b rest ih => rw [writeRange, ih]; rfl
@[simp] theorem writeRange_fault (s : State) (base : Nat) (bs : List Byte) : (writeRange s base bs).fault = s.fault := by
  induction bs generalizing s base with
  | nil => rfl
  | cons b rest ih => rw [writeRange, ih]; rfl
@[simp] theorem writeRange_draws (s : State) (base : Nat) (bs : List Byte) : (writeRange s base bs).draws = s.draws := by
  induction bs generalizing s base with
  | nil => rfl
  | cons b rest ih => rw [writeRange, ih]; rfl
@[simp] theorem writeRange_drawCount (s : State) (base : Nat) (bs : List Byte) : (writeRange s base bs).drawCount = s.drawCount := by
  induction bs generalizing s base with
  | nil => rfl
  | cons b rest ih => rw [writeRange, ih]; rfl
@[simp] theorem writeRange_host (s : State) (base : Nat) (bs : List Byte) : (writeRange s base bs).host = s.host := by
  induction bs generalizing s base with
  | nil => rfl
  | cons b rest ih => rw [writeRange, ih]; rfl

/-! ### What an update sets -/

@[simp] theorem takeFault_pc (pc0 : Word) (f : FaultRecord) (s : State) : (takeFault pc0 f s).pc = pc0 := rfl
@[simp] theorem takeFault_fault (pc0 : Word) (f : FaultRecord) (s : State) : (takeFault pc0 f s).fault = some f := rfl
@[simp] theorem afterFetch_pc (s : State) : (afterFetch s).pc = s.pc + 2 := rfl
@[simp] theorem push_sp (s : State) (w : Word) : (push s w).sp = s.sp + 1 := rfl
@[simp] theorem writeByte_mem (s : State) (a : Nat) (b : Byte) : (writeByte s a b).mem = memSet s.mem a b := rfl
@[simp] theorem tickTimers_dt (dt : Nat) (draws : List Byte) (s : State) : (tickTimers dt draws s).dt = timerTick dt s.dt := rfl
@[simp] theorem tickTimers_st (dt : Nat) (draws : List Byte) (s : State) : (tickTimers dt draws s).st = timerTick dt s.st := rfl
@[simp] theorem tickTimers_draws (dt : Nat) (draws : List Byte) (s : State) : (tickTimers dt draws s).draws = draws := rfl
@[simp] theorem timerSet_count (t : Timer) (n : Byte) : (timerSet t n).count = n := rfl
@[simp] theorem timerSet_acc (t : Timer) (n : Byte) : (timerSet t n).acc = t.acc := rfl

/-- What a skip does to PC (40_flow.md R100). -/
@[simp] theorem skipIf_pc (c : Bool) (s : State) : (skipIf c s).pc = if c then s.pc + 2 else s.pc := by cases c <;> rfl

/-- What a Reset leaves: the reset state with the ROM in memory, and the model's own inputs. -/
theorem resetWith_eq (rom : List Byte) (s : State) :
    resetWith rom s =
      { State.reset with
        mem := (writeRange State.reset 0x200 rom).mem, draws := s.draws, drawCount := s.drawCount, host := s.host } := by
  simp [resetWith, Config.romBase, State.reset]

end Sys2Proof.Machine
end

