-- ==== Sys2Proof/Laws/Memory.lean ====
section
/-!
SUPPORT. The laws of memory: reading after a write, the canonical form kept by every operation, and what storing a list of
bytes leaves (spec 20_memory.md R53, R54, R56, R61).
-/

namespace Sys2Proof.Machine

/-! ### Sparse memory -/

theorem memWfFrom_mono {lo lo' : Nat} {m : Memory} (h : lo' ≤ lo) (hm : memWfFrom lo m = true) : memWfFrom lo' m = true := by
  cases m with
  | nil => rfl
  | cons c rest =>
    obtain ⟨k, b⟩ := c
    simp only [memWfFrom, Bool.and_eq_true, decide_eq_true_eq] at hm ⊢
    exact ⟨⟨⟨by omega, hm.1.1.2⟩, hm.1.2⟩, hm.2⟩

/-- Below the lower bound of a canonical list nothing is listed. -/
theorem memGet_below {lo : Nat} {m : Memory} (hm : memWfFrom lo m = true) {a : Nat} (ha : a < lo) :
    memGet m a = unlistedByte a := by
  induction m generalizing lo with
  | nil => rfl
  | cons c rest ih =>
    obtain ⟨k, b⟩ := c
    simp only [memWfFrom, Bool.and_eq_true, decide_eq_true_eq] at hm
    rw [memGet, if_neg (by omega)]
    exact ih hm.2 (by omega)

/-- A write leaves every other address alone. -/
theorem memGet_memSet_other (m : Memory) {a c : Nat} (b : Byte) (h : c ≠ a) : memGet (memSet m a b) c = memGet m c := by
  induction m with
  | nil =>
    simp only [memSet]
    split
    · rfl
    · simp [memGet, h]
  | cons e rest ih =>
    obtain ⟨k, d⟩ := e
    simp only [memSet]
    split
    · split
      · rfl
      · simp [memGet, h]
    · split
      · subst_vars
        split <;> simp [memGet, h]
      · simp only [memGet, ih]

/-- A read after a write to the same address gives the byte written. -/
theorem memGet_memSet_same {lo : Nat} {m : Memory} (hm : memWfFrom lo m = true) (a : Nat) (b : Byte) :
    memGet (memSet m a b) a = b := by
  induction m generalizing lo with
  | nil =>
    simp only [memSet]
    split
    · next h => simp [memGet, h]
    · simp [memGet]
  | cons e rest ih =>
    obtain ⟨k, d⟩ := e
    simp only [memWfFrom, Bool.and_eq_true, decide_eq_true_eq] at hm
    simp only [memSet]
    split
    · next hk =>
      split
      · next hb => rw [memGet, if_neg (by omega), memGet_below hm.2 (by omega), hb]
      · simp [memGet]
    · split
      · next hk =>
        split
        · next hb => rw [memGet_below hm.2 (by omega), hb]
        · simp [memGet]
      · next hk => rw [memGet, if_neg hk, ih hm.2]

/-- A write keeps the canonical form. -/
theorem memWfFrom_memSet {lo : Nat} {m : Memory} (hm : memWfFrom lo m = true) {a : Nat} (b : Byte) (hlo : lo ≤ a)
    (ha : a < 4096) : memWfFrom lo (memSet m a b) = true := by
  induction m generalizing lo with
  | nil =>
    simp only [memSet]
    split
    · rfl
    · next hb => simp [memWfFrom, Config.memSize, hb, hlo, ha]
  | cons e rest ih =>
    obtain ⟨k, d⟩ := e
    have hm' := hm
    simp only [memWfFrom, Bool.and_eq_true, decide_eq_true_eq] at hm
    simp only [memSet]
    split
    · next hk =>
      split
      · exact hm'
      · next hb =>
        simp only [memWfFrom, Bool.and_eq_true, decide_eq_true_eq]
        exact ⟨⟨⟨hlo, ha⟩, hb⟩, ⟨⟨⟨by omega, hm.1.1.2⟩, hm.1.2⟩, hm.2⟩⟩
    · split
      · next hk =>
        split
        · exact memWfFrom_mono (by omega) hm.2
        · next hb =>
          subst hk
          simp only [memWfFrom, Bool.and_eq_true, decide_eq_true_eq]
          exact ⟨⟨⟨hlo, ha⟩, hb⟩, hm.2⟩
      · next hk =>
        simp only [memWfFrom, Bool.and_eq_true, decide_eq_true_eq]
        exact ⟨hm.1, ih hm.2 (by omega)⟩

/-! ### Memory in the state -/

theorem readByte_eq (s : State) (a : Nat) : readByte s a = memGet s.mem a := rfl

@[simp] theorem readByte_writeReg (s : State) (x : Reg) (b : Byte) (a : Nat) :
    readByte (writeReg s x b) a = readByte s a := rfl

theorem readByte_congr {s t : State} (h : t.mem = s.mem) (a : Nat) : readByte t a = readByte s a := by
  rw [readByte_eq, readByte_eq, h]

theorem readByte_writeByte_other (s : State) {a c : Nat} (b : Byte) (h : c ≠ a) :
    readByte (writeByte s a b) c = readByte s c := memGet_memSet_other _ _ h

theorem readByte_writeByte_same {s : State} (hm : Memory.wf s.mem = true) (a : Nat) (b : Byte) :
    readByte (writeByte s a b) a = b := memGet_memSet_same hm a b

theorem wf_writeByte {s : State} (hm : Memory.wf s.mem = true) {a : Nat} (b : Byte) (ha : a < 4096) :
    Memory.wf (writeByte s a b).mem = true := memWfFrom_memSet hm b (Nat.zero_le a) ha

/-- Storing a list of bytes keeps the canonical form. -/
theorem wf_writeRange {s : State} {base : Nat} {bs : List Byte} (hm : Memory.wf s.mem = true)
    (h : base + bs.length ≤ 4096) : Memory.wf (writeRange s base bs).mem = true := by
  induction bs generalizing s base with
  | nil => exact hm
  | cons b rest ih =>
    simp only [List.length_cons] at h
    exact ih (wf_writeByte hm b (by omega)) (by omega)

/-- Storing a list of bytes leaves every address outside its range alone. -/
theorem readByte_writeRange_outside (s : State) {base a : Nat} (bs : List Byte) (h : a < base ∨ base + bs.length ≤ a) :
    readByte (writeRange s base bs) a = readByte s a := by
  induction bs generalizing s base with
  | nil => rfl
  | cons b rest ih =>
    simp only [List.length_cons] at h
    rw [writeRange, ih _ (by omega), readByte_writeByte_other _ _ (by omega)]

/-- Storing a list of bytes puts byte `k` at `base + k`. -/
theorem readByte_writeRange_inside {s : State} {base : Nat} {bs : List Byte} (hm : Memory.wf s.mem = true)
    (h : base + bs.length ≤ 4096) {k : Nat} (hk : k < bs.length) : readByte (writeRange s base bs) (base + k) = bs[k] := by
  induction bs generalizing s base k with
  | nil => simp at hk
  | cons b rest ih =>
    simp only [List.length_cons] at h hk
    cases k with
    | zero =>
      rw [writeRange, readByte_writeRange_outside _ _ (by omega)]
      exact readByte_writeByte_same hm base b
    | succ k =>
      rw [writeRange, show base + (k + 1) = base + 1 + k by omega, ih (wf_writeByte hm b (by omega)) (by omega) (by omega)]
      rfl

/-- Reset memory is canonical. -/
theorem wf_reset : Memory.wf State.reset.mem = true := rfl

/-- An unlisted address above the font reads as 0 (10_state.md R38). -/
theorem unlistedByte_above {a : Nat} (h : 0x50 ≤ a) : unlistedByte a = 0 := by
  unfold unlistedByte
  rw [List.getD_eq_default _ _ (by simpa [Config.font, Config.fontLow, Config.fontHigh] using h)]

end Sys2Proof.Machine
end

