-- ==== Sys2Proof/Laws/Ops.lean ====
section
/-!
SUPPORT. One lemma per shared operation that says all it does: registers, the range check, raising a fault, drawing, the
timers' loop, the keys. Provers cite these instead of unfolding the operations.
-/

namespace Sys2Proof.Machine

/-! ### Registers -/

theorem readReg_congr {s t : State} (h : t.v = s.v) (r : Reg) : readReg t r = readReg s r := by unfold readReg; rw [h]

/-- What a register write leaves. -/
theorem readReg_writeReg (s : State) (x r : Reg) (b : Byte) :
    readReg (writeReg s x b) r = if r = x then b else readReg s r := by
  obtain ⟨x, hx⟩ := x
  obtain ⟨r, hr⟩ := r
  simp only [readReg, writeReg, Vector.get_eq_getElem, Vector.getElem_set, Fin.mk.injEq]
  by_cases h : x = r <;> simp [h, eq_comm]

@[simp] theorem readReg_writeReg_same (s : State) (x : Reg) (b : Byte) : readReg (writeReg s x b) x = b := by
  simp [readReg_writeReg]

theorem readReg_writeReg_other (s : State) {x r : Reg} (b : Byte) (h : r ≠ x) :
    readReg (writeReg s x b) r = readReg s r := by simp [readReg_writeReg, h]

/-- What loading registers leaves (42_index_memory.md R135). -/
theorem readReg_loadRegsFrom (s : State) (base : Word) (x r : Reg) :
    readReg (loadRegsFrom s base x) r = if r ≤ x then readByte s (base.toNat + r.val) else readReg s r := by
  simp [readReg, loadRegsFrom, effectiveAddress]

/-- `V[0..x]` lists the registers in order (R134). -/
theorem regsUpTo_length (s : State) (x : Reg) : (regsUpTo s x).length = x.val + 1 := by
  simp only [regsUpTo, List.length_take, Vector.length_toList]; omega

theorem regsUpTo_getElem (s : State) (x : Reg) {k : Nat} (h : k < (regsUpTo s x).length) (hk : k < 16) :
    (regsUpTo s x)[k] = readReg s ⟨k, hk⟩ := by
  simp [regsUpTo, readReg, Vector.get_eq_getElem]

/-! ### The range check and faults -/

/-- An access is out of range exactly when it is not empty and ends above 4095 (20_memory.md R56, R57). -/
theorem outOfRange_iff (base n : Nat) : outOfRange base n = true ↔ 0 < n ∧ 4096 < base + n := by
  show (decide (0 < n) && decide (4096 < base + n)) = true ↔ _
  rw [Bool.and_eq_true, decide_eq_true_eq, decide_eq_true_eq]

theorem outOfRange_false_iff (base n : Nat) : outOfRange base n = false ↔ n = 0 ∨ base + n ≤ 4096 := by
  rw [← Bool.not_eq_true, outOfRange_iff]; omega

/-- Raising a fault answers a next state that differs in PC and in the latch (60_exceptions.md R167). -/
theorem raiseFault_eq (f : FaultRecord) (s : State) :
    raiseFault f s = .next { s with pc := s.pc - 2, fault := some f } := rfl

/-! ### Draws -/

/-- The next draw (60_exceptions.md R183). -/
theorem takeDraw_cons {s : State} {d : Byte} {rest : List Byte} (h : s.draws = d :: rest) :
    takeDraw s = (d, { s with draws := rest }) := by unfold takeDraw; rw [h]

theorem takeDraw_nil {s : State} (h : s.draws = []) :
    takeDraw s = (Config.freeDraw s.drawCount, { s with drawCount := s.drawCount + 1 }) := by unfold takeDraw; rw [h]

/-! ### Keys -/

/-- What a key-down event leaves of one key (60_exceptions.md R174). -/
theorem keyDown_get (code k : KeyCode) (s : State) : (keyDown code s).keys.get k = if k = code then true else s.keys.get k := by
  obtain ⟨c, hc⟩ := code
  obtain ⟨k, hk⟩ := k
  simp only [keyDown, Vector.get_eq_getElem, Vector.getElem_set, Fin.mk.injEq]
  by_cases h : c = k <;> simp [h, eq_comm]

/-- What a key-up event leaves of one key (R174). -/
theorem keyUp_get (code k : KeyCode) (s : State) : (keyUp code s).keys.get k = if k = code then false else s.keys.get k := by
  obtain ⟨c, hc⟩ := code
  obtain ⟨k, hk⟩ := k
  simp only [keyUp, Vector.get_eq_getElem, Vector.getElem_set, Fin.mk.injEq]
  by_cases h : c = k <;> simp [h, eq_comm]

/-- A key query of a code in range (R175). -/
theorem isKeyPressed_eq (s : State) (k : KeyCode) : isKeyPressed s k.val = s.keys.get k := by
  simp [isKeyPressed, Vector.get_eq_getElem]

/-! ### Time -/

/-- A cycle is due every 3 quanta (00_scope.md R7). -/
@[simp] theorem cpuPeriod_eq : Config.cpuPeriod = 3 := rfl

/-- A timer decrement is due every 25 quanta (R7). -/
@[simp] theorem timerPeriod_eq : Config.timerPeriod = 25 := rfl

/-- Both rates divide the unit of time, so that no time is rounded away (R7; D10). -/
theorem periods_exact : Config.cpuPeriod * Config.cpuHz = Config.timeQuantaPerSecond ∧
    Config.timerPeriod * Config.timerHz = Config.timeQuantaPerSecond := ⟨rfl, rfl⟩

/-! ### Timers -/

/-- One turn of the timer's loop (R173). -/
theorem timerLoop_succ (c acc : Nat) :
    timerLoop (c + 1) acc = if 25 ≤ acc then timerLoop c (acc - 25) else ⟨BitVec.ofNat 8 (c + 1), acc⟩ := rfl

@[simp] theorem timerTick_idle (dt : Nat) {t : Timer} (h : t.count = 0) : timerTick dt t = ⟨t.count, 0⟩ := by
  simp [timerTick, h]

end Sys2Proof.Machine
end

