-- ==== Sys2Proof/Laws/Display.lean ====
section
/-!
SUPPORT. What the display's operations do to one pixel (spec 43_display.md R140 to R145): setting a pixel, clearing, and
the blit as a whole, whose loops address no pixel twice (R145).
-/

namespace Sys2Proof.Machine

open Sys2Proof.Safety

/-- What setting a pixel leaves of any pixel, both places taken with wrap-around (R144). -/
theorem pixelAt_setPixel (fb : Framebuffer) (px py qx qy : Nat) (b : Bool) :
    pixelAt (setPixel fb px py b) qx qy = if qx % 64 = px % 64 ∧ qy % 32 = py % 32 then b else pixelAt fb qx qy := by
  unfold pixelAt setPixel
  simp only [Vector.getElem_set]
  by_cases h1 : py % 32 = qy % 32
  · simp only [h1, if_true, Vector.getElem_set]
    by_cases h2 : px % 64 = qx % 64
    · simp [h2]
    · simp [h2, Ne.symm h2]
  · simp [h1, Ne.symm h1]

/-- Every pixel of a cleared display is off (R140). -/
@[simp] theorem pixelAt_clearDisplay (px py : Nat) : pixelAt clearDisplay px py = false := by
  simp [pixelAt, clearDisplay]

/-- Two displays with the same pixels are the same data. -/
theorem framebuffer_ext {a b : Framebuffer} (h : ∀ px py, px < 64 → py < 32 → pixelAt a px py = pixelAt b px py) :
    a = b := by
  apply Vector.ext; intro j hj
  apply Vector.ext; intro k hk
  have h0 := h k j hk hj
  simp only [pixelAt, Nat.mod_eq_of_lt hj, Nat.mod_eq_of_lt hk] at h0
  exact h0

/-! ### The blit as a list of toggled places -/

/-- Toggling a list of places, one after another. -/
def togglePlaces : List (Nat × Nat) → BlitState → BlitState
  | [], acc => acc
  | p :: ps, acc => togglePlaces ps (blitPixel true p.1 p.2 acc)

/-- A place reduced to the grid (R144). -/
def wrapPlace (p : Nat × Nat) : Nat × Nat := (p.1 % 64, p.2 % 32)

theorem togglePlaces_append (a b : List (Nat × Nat)) (acc : BlitState) :
    togglePlaces (a ++ b) acc = togglePlaces b (togglePlaces a acc) := by
  induction a generalizing acc with
  | nil => rfl
  | cons p ps ih => simp [togglePlaces, ih]

/-- Toggling places that are distinct on the grid: each is inverted, no other changes, and a collision is a place that was
lit. -/
theorem togglePlaces_spec (l : List (Nat × Nat)) (hn : (l.map wrapPlace).Nodup) (acc : BlitState) :
    (∀ qx qy, pixelAt (togglePlaces l acc).1 qx qy =
      xor (pixelAt acc.1 qx qy) (decide (wrapPlace (qx, qy) ∈ l.map wrapPlace))) ∧
    (togglePlaces l acc).2 = (acc.2 || l.any fun p => pixelAt acc.1 p.1 p.2) := by
  induction l generalizing acc with
  | nil => simp [togglePlaces]
  | cons p ps ih =>
    simp only [List.map_cons, List.nodup_cons] at hn
    obtain ⟨h1, h2⟩ := ih hn.2 (blitPixel true p.1 p.2 acc)
    constructor
    · intro qx qy
      rw [togglePlaces, h1]
      simp only [blitPixel, if_true, pixelAt_setPixel, List.map_cons, List.mem_cons]
      by_cases hq : wrapPlace (qx, qy) = wrapPlace p
      · rw [if_pos (by simpa [wrapPlace] using hq)]
        have hnot : wrapPlace (qx, qy) ∉ ps.map wrapPlace := by rw [hq]; exact hn.1
        have e : pixelAt acc.1 qx qy = pixelAt acc.1 p.1 p.2 := by
          simp only [wrapPlace, Prod.mk.injEq] at hq; simp [pixelAt, hq]
        rw [decide_eq_false hnot, decide_eq_true (Or.inl hq), e]; simp
      · rw [if_neg (by simpa [wrapPlace] using hq)]; simp [hq]
    · rw [togglePlaces, h2]
      simp only [blitPixel, if_true, List.any_cons, collides]
      have hsame : (ps.any fun q => pixelAt (setPixel acc.1 p.1 p.2 !pixelAt acc.1 p.1 p.2) q.1 q.2) =
          ps.any fun q => pixelAt acc.1 q.1 q.2 := by
        apply Bool.eq_iff_iff.mpr
        simp only [List.any_eq_true]
        apply exists_congr; intro q
        apply and_congr_right; intro hq
        rw [pixelAt_setPixel, if_neg]
        intro h
        apply hn.1
        have he : wrapPlace q = wrapPlace p := by simp [wrapPlace, h]
        rw [← he]; exact List.mem_map_of_mem hq
      rw [hsame]
      cases acc.2 <;> cases pixelAt acc.1 p.1 p.2 <;> simp

/-- The places of one row's 1-bits. -/
def rowPlaces (sx py : Nat) (row : Byte) (ks : List Nat) : List (Nat × Nat) :=
  (ks.filter (spriteBit row ·)).map fun k => (sx + k, py)

/-- The places of a sprite's 1-bits. -/
def spritePlaces (sx : Nat) : Nat → List Byte → List (Nat × Nat)
  | _, [] => []
  | sy, r :: rs => rowPlaces sx sy r (List.range 8) ++ spritePlaces sx (sy + 1) rs

theorem blitColumns_eq (sx py : Nat) (row : Byte) (ks : List Nat) (acc : BlitState) :
    blitColumns sx py row ks acc = togglePlaces (rowPlaces sx py row ks) acc := by
  induction ks generalizing acc with
  | nil => rfl
  | cons k ks ih =>
    rw [blitColumns, ih]
    cases h : spriteBit row k <;> simp [rowPlaces, h, blitPixel, togglePlaces]

theorem blitRows_eq (sx sy : Nat) (rows : List Byte) (acc : BlitState) :
    blitRows sx sy rows acc = togglePlaces (spritePlaces sx sy rows) acc := by
  induction rows generalizing sy acc with
  | nil => rfl
  | cons r rs ih => rw [blitRows, ih, blitColumns_eq, spritePlaces, togglePlaces_append]

theorem mem_spritePlaces (sx sy : Nat) (rows : List Byte) (p : Nat × Nat) :
    p ∈ spritePlaces sx sy rows ↔
      ∃ r k, k < 8 ∧ (∃ row, rows[r]? = some row ∧ row.getLsbD (7 - k) = true) ∧ p = (sx + k, sy + r) := by
  induction rows generalizing sy with
  | nil => simp [spritePlaces]
  | cons r rs ih =>
    simp only [spritePlaces, List.mem_append, ih, rowPlaces, List.mem_map, List.mem_filter, List.mem_range, spriteBit]
    constructor
    · rintro (⟨k, ⟨hk, hb⟩, rfl⟩ | ⟨j, k, hk, ⟨row, h1, h2⟩, rfl⟩)
      · exact ⟨0, k, hk, ⟨r, rfl, hb⟩, rfl⟩
      · exact ⟨j + 1, k, hk, ⟨row, by simpa using h1, h2⟩, by simp; omega⟩
    · rintro ⟨j, k, hk, ⟨row, h1, h2⟩, rfl⟩
      cases j with
      | zero => left; simp at h1; subst h1; exact ⟨k, ⟨hk, h2⟩, rfl⟩
      | succ j => right; exact ⟨j, k, hk, ⟨row, by simpa using h1, h2⟩, by simp; omega⟩

/-- No pixel is addressed twice (R145): a sprite is 8 columns wide and at most 32 rows high here. -/
theorem spritePlaces_nodup (sx sy : Nat) (rows : List Byte) (h : rows.length ≤ 32) :
    ((spritePlaces sx sy rows).map wrapPlace).Nodup := by
  induction rows generalizing sy with
  | nil => simp [spritePlaces]
  | cons r rs ih =>
    simp only [List.length_cons] at h
    rw [spritePlaces, List.map_append, List.nodup_append]
    refine ⟨?_, ih _ (by omega), ?_⟩
    · rw [rowPlaces, List.map_map, List.Nodup, List.pairwise_map]
      apply List.Pairwise.filter
      apply List.Pairwise.imp_of_mem _ (List.pairwise_lt_range (n := 8))
      intro a b ha hb hab
      simp at ha hb
      simp [wrapPlace]; omega
    · intro a ha b hb hab
      simp only [List.mem_map] at ha hb
      obtain ⟨p, hp, rfl⟩ := ha
      obtain ⟨q, hq, rfl⟩ := hb
      rw [mem_spritePlaces] at hq
      obtain ⟨j, k, hk, ⟨row, hr, _⟩, rfl⟩ := hq
      simp only [rowPlaces, List.mem_map, List.mem_filter, List.mem_range] at hp
      obtain ⟨k', ⟨hk', _⟩, rfl⟩ := hp
      have hj : j < rs.length := (List.getElem?_eq_some_iff.mp hr).1
      simp [wrapPlace] at hab; omega

theorem covers_iff (sx sy : Nat) (rows : List Byte) (px py : Nat) :
    Covers sx sy rows px py ↔ (px, py) ∈ (spritePlaces sx sy rows).map wrapPlace := by
  simp only [List.mem_map, mem_spritePlaces, Covers]
  constructor
  · rintro ⟨r, k, hk, hr, h1, h2⟩
    exact ⟨_, ⟨r, k, hk, hr, rfl⟩, by simp [wrapPlace, h1, h2]⟩
  · rintro ⟨p, ⟨r, k, hk, hr, rfl⟩, h⟩
    simp [wrapPlace] at h
    exact ⟨r, k, hk, hr, h.1, h.2⟩

/-- The pixels a blit leaves (R142, R144): the places of the sprite's 1-bits are inverted. -/
theorem pixelAt_blit (fb : Framebuffer) (sx sy : Nat) (rows : List Byte) (h : rows.length ≤ 32) (qx qy : Nat) :
    pixelAt (blit fb sx sy rows).1 qx qy =
      xor (pixelAt fb qx qy) (decide (wrapPlace (qx, qy) ∈ (spritePlaces sx sy rows).map wrapPlace)) := by
  rw [blit, blitRows_eq]
  exact (togglePlaces_spec _ (spritePlaces_nodup sx sy rows h) (fb, false)).1 qx qy

/-- What a blit answers (R143): some place of a 1-bit was lit. -/
theorem blit_collided (fb : Framebuffer) (sx sy : Nat) (rows : List Byte) (h : rows.length ≤ 32) :
    (blit fb sx sy rows).2 = (spritePlaces sx sy rows).any fun p => pixelAt fb p.1 p.2 := by
  rw [blit, blitRows_eq, (togglePlaces_spec _ (spritePlaces_nodup sx sy rows h) (fb, false)).2, Bool.false_or]

end Sys2Proof.Machine
end

