-- ==== Sys2Proof/Laws/PerInstr.lean ====
section
/-!
SUPPORT. The per-instruction family `EncodeMatchesRow`: an instruction's word meets the mask and match of its own row of the
opcode map (spec 30_encoding.md R75). The fallback row (R76) has neither, so its lemma says nothing of the word.
-/

namespace Sys2Proof.Laws.EncodeMatchesRow

/-- The row of the map with the instruction's number, if it has one, is met by the instruction's word. -/
def Statement (i : Instr) : Prop :=
  ∀ r, table.find? (fun r => r.number = i.rowNumber) = some r → r.Matches (encode i) = true

/-- It is enough to meet the row that the search finds. -/
theorem statement_of_row {i : Instr} (r : Row) (hr : table.find? (fun r => r.number = i.rowNumber) = some r)
    (h : encode i &&& r.mask = r.pattern) : Statement i := by
  intro r' hr'
  rw [hr, Option.some.injEq] at hr'
  subst hr'
  simpa [Row.Matches] using h

/-- Format NNN under the mask of its top nibble. -/
theorem encodeNnn_and_top (m : BitVec 4) (nnn : BitVec 12) : encodeNnn m nnn &&& 0xF000 = m ++ 0#12 := by
  show (m ++ nnn) &&& (BitVec.allOnes 4 ++ 0#12) = _
  simp only [BitVec.and_append, BitVec.and_allOnes, BitVec.and_zero]

/-- Format XKK under the mask of its top nibble. -/
theorem encodeXkk_and_top (m : BitVec 4) (x : Reg) (kk : Byte) :
    encodeXkk m x kk &&& 0xF000 = (m ++ 0#4) ++ 0#8 := by
  show ((m ++ nibble x) ++ kk) &&& ((BitVec.allOnes 4 ++ 0#4) ++ 0#8) = _
  simp only [BitVec.and_append, BitVec.and_allOnes, BitVec.and_zero]

/-- Format XS under the mask of its top nibble and its low byte. -/
theorem encodeXkk_and_sub (m : BitVec 4) (x : Reg) (kk : Byte) :
    encodeXkk m x kk &&& 0xF0FF = (m ++ 0#4) ++ kk := by
  show ((m ++ nibble x) ++ kk) &&& ((BitVec.allOnes 4 ++ 0#4) ++ BitVec.allOnes 8) = _
  simp only [BitVec.and_append, BitVec.and_allOnes, BitVec.and_zero]

/-- Format XY under the mask of its top and low nibbles. -/
theorem encodeXyn_and_sub (m : BitVec 4) (x y : Reg) (n : BitVec 4) :
    encodeXyn m x y n &&& 0xF00F = (m ++ 0#4) ++ (0#4 ++ n) := by
  show ((m ++ nibble x) ++ (nibble y ++ n)) &&&
    ((BitVec.allOnes 4 ++ 0#4) ++ (0#4 ++ BitVec.allOnes 4)) = (_ : BitVec (4 + 4 + (4 + 4)))
  simp only [BitVec.and_append, BitVec.and_allOnes, BitVec.and_zero]

/-- Format XYN under the mask of its top nibble. -/
theorem encodeXyn_and_top (m : BitVec 4) (x y : Reg) (n : BitVec 4) :
    encodeXyn m x y n &&& 0xF000 = (m ++ 0#4) ++ (0#4 ++ 0#4) := by
  show ((m ++ nibble x) ++ (nibble y ++ n)) &&&
    ((BitVec.allOnes 4 ++ 0#4) ++ (0#4 ++ 0#4)) = (_ : BitVec (4 + 4 + (4 + 4)))
  simp only [BitVec.and_append, BitVec.and_allOnes, BitVec.and_zero]

theorem cls : Statement (.cls) :=
  statement_of_row ⟨1, 0x00E0, 0xFFFF⟩ rfl (by decide)
theorem ret : Statement (.ret) :=
  statement_of_row ⟨2, 0x00EE, 0xFFFF⟩ rfl (by decide)
theorem jp (nnn : BitVec 12) : Statement (.jp nnn) :=
  statement_of_row ⟨3, 0x1000, 0xF000⟩ rfl (encodeNnn_and_top 0x1 nnn)
theorem call (nnn : BitVec 12) : Statement (.call nnn) :=
  statement_of_row ⟨4, 0x2000, 0xF000⟩ rfl (encodeNnn_and_top 0x2 nnn)
theorem seImm (x : Reg) (kk : Byte) : Statement (.seImm x kk) :=
  statement_of_row ⟨5, 0x3000, 0xF000⟩ rfl (encodeXkk_and_top 0x3 x kk)
theorem sneImm (x : Reg) (kk : Byte) : Statement (.sneImm x kk) :=
  statement_of_row ⟨6, 0x4000, 0xF000⟩ rfl (encodeXkk_and_top 0x4 x kk)
theorem seReg (x : Reg) (y : Reg) : Statement (.seReg x y) :=
  statement_of_row ⟨7, 0x5000, 0xF00F⟩ rfl (encodeXyn_and_sub 0x5 x y 0x0)
theorem ldImm (x : Reg) (kk : Byte) : Statement (.ldImm x kk) :=
  statement_of_row ⟨8, 0x6000, 0xF000⟩ rfl (encodeXkk_and_top 0x6 x kk)
theorem addImm (x : Reg) (kk : Byte) : Statement (.addImm x kk) :=
  statement_of_row ⟨9, 0x7000, 0xF000⟩ rfl (encodeXkk_and_top 0x7 x kk)
theorem ldReg (x : Reg) (y : Reg) : Statement (.ldReg x y) :=
  statement_of_row ⟨10, 0x8000, 0xF00F⟩ rfl (encodeXyn_and_sub 0x8 x y 0x0)
theorem orReg (x : Reg) (y : Reg) : Statement (.orReg x y) :=
  statement_of_row ⟨11, 0x8001, 0xF00F⟩ rfl (encodeXyn_and_sub 0x8 x y 0x1)
theorem andReg (x : Reg) (y : Reg) : Statement (.andReg x y) :=
  statement_of_row ⟨12, 0x8002, 0xF00F⟩ rfl (encodeXyn_and_sub 0x8 x y 0x2)
theorem xorReg (x : Reg) (y : Reg) : Statement (.xorReg x y) :=
  statement_of_row ⟨13, 0x8003, 0xF00F⟩ rfl (encodeXyn_and_sub 0x8 x y 0x3)
theorem addReg (x : Reg) (y : Reg) : Statement (.addReg x y) :=
  statement_of_row ⟨14, 0x8004, 0xF00F⟩ rfl (encodeXyn_and_sub 0x8 x y 0x4)
theorem subReg (x : Reg) (y : Reg) : Statement (.subReg x y) :=
  statement_of_row ⟨15, 0x8005, 0xF00F⟩ rfl (encodeXyn_and_sub 0x8 x y 0x5)
theorem shr (x : Reg) (y : Reg) : Statement (.shr x y) :=
  statement_of_row ⟨16, 0x8006, 0xF00F⟩ rfl (encodeXyn_and_sub 0x8 x y 0x6)
theorem subnReg (x : Reg) (y : Reg) : Statement (.subnReg x y) :=
  statement_of_row ⟨17, 0x8007, 0xF00F⟩ rfl (encodeXyn_and_sub 0x8 x y 0x7)
theorem shl (x : Reg) (y : Reg) : Statement (.shl x y) :=
  statement_of_row ⟨18, 0x800E, 0xF00F⟩ rfl (encodeXyn_and_sub 0x8 x y 0xE)
theorem sneReg (x : Reg) (y : Reg) : Statement (.sneReg x y) :=
  statement_of_row ⟨19, 0x9000, 0xF00F⟩ rfl (encodeXyn_and_sub 0x9 x y 0x0)
theorem ldI (nnn : BitVec 12) : Statement (.ldI nnn) :=
  statement_of_row ⟨20, 0xA000, 0xF000⟩ rfl (encodeNnn_and_top 0xA nnn)
theorem jpV0 (nnn : BitVec 12) : Statement (.jpV0 nnn) :=
  statement_of_row ⟨21, 0xB000, 0xF000⟩ rfl (encodeNnn_and_top 0xB nnn)
theorem rnd (x : Reg) (kk : Byte) : Statement (.rnd x kk) :=
  statement_of_row ⟨22, 0xC000, 0xF000⟩ rfl (encodeXkk_and_top 0xC x kk)
theorem drw (x : Reg) (y : Reg) (n : Fin 16) : Statement (.drw x y n) :=
  statement_of_row ⟨23, 0xD000, 0xF000⟩ rfl (encodeXyn_and_top 0xD x y (nibble n))
theorem skp (x : Reg) : Statement (.skp x) :=
  statement_of_row ⟨24, 0xE09E, 0xF0FF⟩ rfl (encodeXkk_and_sub 0xE x 0x9E)
theorem sknp (x : Reg) : Statement (.sknp x) :=
  statement_of_row ⟨25, 0xE0A1, 0xF0FF⟩ rfl (encodeXkk_and_sub 0xE x 0xA1)
theorem ldVxDt (x : Reg) : Statement (.ldVxDt x) :=
  statement_of_row ⟨26, 0xF007, 0xF0FF⟩ rfl (encodeXkk_and_sub 0xF x 0x07)
theorem ldVxK (x : Reg) : Statement (.ldVxK x) :=
  statement_of_row ⟨27, 0xF00A, 0xF0FF⟩ rfl (encodeXkk_and_sub 0xF x 0x0A)
theorem ldDtVx (x : Reg) : Statement (.ldDtVx x) :=
  statement_of_row ⟨28, 0xF015, 0xF0FF⟩ rfl (encodeXkk_and_sub 0xF x 0x15)
theorem ldStVx (x : Reg) : Statement (.ldStVx x) :=
  statement_of_row ⟨29, 0xF018, 0xF0FF⟩ rfl (encodeXkk_and_sub 0xF x 0x18)
theorem addI (x : Reg) : Statement (.addI x) :=
  statement_of_row ⟨30, 0xF01E, 0xF0FF⟩ rfl (encodeXkk_and_sub 0xF x 0x1E)
theorem ldF (x : Reg) : Statement (.ldF x) :=
  statement_of_row ⟨31, 0xF029, 0xF0FF⟩ rfl (encodeXkk_and_sub 0xF x 0x29)
theorem ldB (x : Reg) : Statement (.ldB x) :=
  statement_of_row ⟨32, 0xF033, 0xF0FF⟩ rfl (encodeXkk_and_sub 0xF x 0x33)
theorem storeRegs (x : Reg) : Statement (.storeRegs x) :=
  statement_of_row ⟨33, 0xF055, 0xF0FF⟩ rfl (encodeXkk_and_sub 0xF x 0x55)
theorem loadRegs (x : Reg) : Statement (.loadRegs x) :=
  statement_of_row ⟨34, 0xF065, 0xF0FF⟩ rfl (encodeXkk_and_sub 0xF x 0x65)
theorem unrecognised (op : Word) : Statement (.unrecognised op) := by
  intro r hr
  have : table.find? (fun r => r.number = 35) = none := by decide
  rw [show (Instr.unrecognised op).rowNumber = 35 from rfl, this] at hr
  cases hr

end Sys2Proof.Laws.EncodeMatchesRow
end

