-- ==== Sys2Proof/Laws/Step.lean ====
section
/-!
SUPPORT. What a step does, said once: a cycle of a running machine, a stopped machine, a pending host operation.
-/

namespace Sys2Proof.Machine

/-- A step with a host operation pending performs it. -/
theorem step_of_pending {s : State} {op : HostOp} {rest : List HostOp} (h : s.host = op :: rest) :
    step s = hostOp op { s with host := rest } := by unfold step advance; rw [h]

/-- A step of a running machine is one cycle. -/
theorem step_of_running {s : State} (h : Safety.Running s) : step s = cpuCycle s := by
  unfold step advance cpuStep; rw [h.2]; simp [h.1]

/-- A step of a stopped machine with nothing pending answers the same state. -/
theorem step_of_stopped {s : State} {f : FaultRecord} (hf : s.fault = some f) (h : s.host = []) : step s = .next s := by
  unfold step advance cpuStep; rw [h]; simp [hf]

/-- A cycle whose fetch is in range executes the decoded word on the state after the fetch. -/
theorem cpuCycle_of_fetch {s : State} (h : s.pc.toNat ≤ 0xFFE) : cpuCycle s = exec (fetched s) (afterFetch s) := by
  unfold cpuCycle
  rw [if_neg]
  simp only [outOfRange_iff]; omega

/-- A cycle whose fetch is out of range takes the fetch fault (60_exceptions.md R161). -/
theorem cpuCycle_of_no_fetch {s : State} (h : 0xFFE < s.pc.toNat) :
    cpuCycle s = .next { s with fault := some (.memFault .fetch s.pc 2) } := by
  unfold cpuCycle
  rw [if_pos]
  · rfl
  · simp only [outOfRange_iff]; omega

end Sys2Proof.Machine
end

