-- ==== Sys2Proof/Tests/Slice0.lean ====
section
/-!
SUPPORT. Tests of the model: decoding of words written out bit by bit from the spec's encodings, the refusal of ill-formed
terms, and one-step tests whose expected results are the vectors of spec/95_test_vectors.md (named in each comment).
-/

namespace Sys2Proof.Tests

open Sys2Proof.Machine

/-! ### Helpers -/

/-- Does one step of `w` placed at PC answer a next state with property `p`? -/
def after (s : State) (w : Nat) (p : State → Bool) : Bool :=
  match step (s.withFetchWord 16 w) with
  | .next t => p t
  | .fault _ => false
  | .refused _ => false

/-- Does performing one host operation answer a next state with property `p`? -/
def afterHost (s : State) (op : HostOp) (p : State → Bool) : Bool :=
  match step { s with host := [op] } with
  | .next t => p t
  | .fault _ => false
  | .refused _ => false

/-- The reset state with two registers set. -/
def regs2 (a : Reg) (va : Byte) (b : Reg) (vb : Byte) : State := writeReg (writeReg State.reset a va) b vb

/-- The reset state with I set. -/
def withI (s : State) (i : Word) : State := { s with i := i }

/-! ### Ill-formed terms are refused (WellFormed has one check) -/

theorem test_wellformed_refuses_recognised_word : Instr.WellFormed (.unrecognised 0x00E0) = false := by decide
theorem test_wellformed_refuses_recognised_alu_word : Instr.WellFormed (.unrecognised 0x8124) = false := by decide
theorem test_wellformed_accepts_unrecognised_word : Instr.WellFormed (.unrecognised 0x8128) = true := by decide

/-! ### Words written out from the encodings of 30_encoding.md R75, one for every row -/

theorem test_decode_cls : decode 0b0000000011100000 = .cls := by decide
theorem test_decode_ret : decode 0b0000000011101110 = .ret := by decide
theorem test_decode_jp : decode 0b0001001000000100 = .jp 0x204 := by decide
theorem test_decode_call : decode 0b0010001000010000 = .call 0x210 := by decide
theorem test_decode_seImm : decode 0b0011001100101010 = .seImm 3 0x2A := by decide
theorem test_decode_sneImm : decode 0b0100001100101010 = .sneImm 3 0x2A := by decide
theorem test_decode_seReg : decode 0b0101000100100000 = .seReg 1 2 := by decide
theorem test_decode_ldImm : decode 0b0110000000000101 = .ldImm 0 0x05 := by decide
theorem test_decode_addImm : decode 0b0111000000000011 = .addImm 0 0x03 := by decide
theorem test_decode_ldReg : decode 0b1000000100100000 = .ldReg 1 2 := by decide
theorem test_decode_orReg : decode 0b1000000100100001 = .orReg 1 2 := by decide
theorem test_decode_andReg : decode 0b1000000100100010 = .andReg 1 2 := by decide
theorem test_decode_xorReg : decode 0b1000000100100011 = .xorReg 1 2 := by decide
theorem test_decode_addReg : decode 0b1000000100100100 = .addReg 1 2 := by decide
theorem test_decode_subReg : decode 0b1000000100100101 = .subReg 1 2 := by decide
theorem test_decode_shr : decode 0b1000000100000110 = .shr 1 0 := by decide
theorem test_decode_subnReg : decode 0b1000000100100111 = .subnReg 1 2 := by decide
theorem test_decode_shl : decode 0b1000000100001110 = .shl 1 0 := by decide
theorem test_decode_sneReg : decode 0b1001000100100000 = .sneReg 1 2 := by decide
theorem test_decode_ldI : decode 0b1010001000000000 = .ldI 0x200 := by decide
theorem test_decode_jpV0 : decode 0b1011001100000000 = .jpV0 0x300 := by decide
theorem test_decode_rnd : decode 0b1100000100001111 = .rnd 1 0x0F := by decide
theorem test_decode_drw : decode 0b1101000000000101 = .drw 0 0 5 := by decide
theorem test_decode_skp : decode 0b1110000110011110 = .skp 1 := by decide
theorem test_decode_sknp : decode 0b1110000110100001 = .sknp 1 := by decide
theorem test_decode_ldVxDt : decode 0b1111000100000111 = .ldVxDt 1 := by decide
theorem test_decode_ldVxK : decode 0b1111000100001010 = .ldVxK 1 := by decide
theorem test_decode_ldDtVx : decode 0b1111000100010101 = .ldDtVx 1 := by decide
theorem test_decode_ldStVx : decode 0b1111000100011000 = .ldStVx 1 := by decide
theorem test_decode_addI : decode 0b1111001000011110 = .addI 2 := by decide
theorem test_decode_ldF : decode 0b1111001100101001 = .ldF 3 := by decide
theorem test_decode_ldB : decode 0b1111000000110011 = .ldB 0 := by decide
theorem test_decode_storeRegs : decode 0b1111001001010101 = .storeRegs 2 := by decide
theorem test_decode_loadRegs : decode 0b1111001001100101 = .loadRegs 2 := by decide
theorem test_decode_unrecognised : decode 0b1111000101110101 = .unrecognised 0xF175 := by decide
theorem test_decode_bytes_too_short : decodeBytes [0x60] = .error .tooShort := by rfl
theorem test_decode_bytes_big_endian : decodeBytes [0x60, 0x05, 0xAA] = .ok (.ldImm 0 0x05, [0xAA]) := by rfl
theorem test_decode_table_word : decodeTableWord 16 0x6005 = some (.ldImm 0 0x05) := by decide

/-! ### Control transfer (95_test_vectors.md, V-FLOW) -/

/-- A stack with two calls outstanding (V-FLOW-1). -/
def twoCalls : State :=
  { State.reset with sp := 2, pc := 0x400, stack := (State.reset.stack.set 1 0x206).set 2 0x345 }

theorem test_ret : after twoCalls 0x00EE (fun t => t.pc = 0x345 && t.sp = 1 && t.stack.get 2 = 0x345) = true := by decide
theorem test_ret_underflow : after State.reset 0x00EE
    (fun t => t.pc = 0x200 && t.sp = 0 && t.fault = some .stackUnderflow) = true := by decide
theorem test_jp : after State.reset 0x1ABC (fun t => t.pc = 0x0ABC) = true := by decide
theorem test_call : after { State.reset with sp := 3, pc := 0xFFE } 0x2ABC
    (fun t => t.sp = 4 && t.stack.get 4 = 0x1000 && t.pc = 0x0ABC) = true := by decide
theorem test_call_overflow : after { State.reset with sp := 15 } 0x2ABC
    (fun t => t.sp = 15 && t.pc = 0x200 && t.fault = some .stackOverflow) = true := by decide
theorem test_seImm : after (regs2 15 1 0 0) 0x3F01 (fun t => t.pc = 0x204) = true := by decide
theorem test_sneImm : after State.reset 0x4100 (fun t => t.pc = 0x202) = true := by decide
theorem test_seReg : after (regs2 1 7 2 8) 0x5120 (fun t => t.pc = 0x202) = true := by decide
theorem test_sneReg : after (regs2 1 7 2 8) 0x9120 (fun t => t.pc = 0x204) = true := by decide
theorem test_jpV0 : after (regs2 0 0xFF 1 0) 0xBFFF (fun t => t.pc = 0x10FE) = true := by decide
theorem test_unrecognised_no_skip : after (regs2 1 7 2 7) 0x5121 (fun t => t.pc = 0x202) = true := by decide
theorem test_fetch_fault : cpuCycle { State.reset with pc := 0xFFF } =
    .next { State.reset with pc := 0xFFF, fault := some (.memFault .fetch 0xFFF 2) } := by rfl

/-! ### Register, arithmetic, logic (V-ALU) -/

theorem test_ldImm : after State.reset 0x6FAB (fun t => readReg t 15 = 0xAB && t.pc = 0x202) = true := by decide
theorem test_addImm_wraps_without_flag : after (regs2 1 0xFF 15 7) 0x7101
    (fun t => readReg t 1 = 0 && readReg t 15 = 7) = true := by decide
theorem test_ldReg : after (regs2 1 0 2 0x7E) 0x8120 (fun t => readReg t 1 = 0x7E) = true := by decide
theorem test_orReg : after (regs2 1 0xF0 2 0x3C) 0x8121 (fun t => readReg t 1 = 0xFC && readReg t 15 = 0) = true := by decide
theorem test_andReg : after (regs2 1 0xF0 2 0x3C) 0x8122 (fun t => readReg t 1 = 0x30) = true := by decide
theorem test_xorReg : after (regs2 1 0xF0 2 0x3C) 0x8123 (fun t => readReg t 1 = 0xCC) = true := by decide
theorem test_addReg : after (regs2 1 0xC8 2 0x64) 0x8124 (fun t => readReg t 1 = 0x2C && readReg t 15 = 1) = true := by decide
theorem test_addReg_into_flag : after (regs2 15 5 1 3) 0x8F14 (fun t => readReg t 15 = 0) = true := by decide
theorem test_addReg_carry_into_flag : after (regs2 15 0xFF 1 3) 0x8F14 (fun t => readReg t 15 = 1) = true := by decide
theorem test_subReg : after (regs2 1 0x03 2 0x0A) 0x8125 (fun t => readReg t 1 = 0xF9 && readReg t 15 = 0) = true := by decide
theorem test_subReg_from_flag : after (regs2 15 9 1 3) 0x8F15 (fun t => readReg t 15 = 0xFE) = true := by decide
theorem test_shr : after (regs2 1 5 2 0xAA) 0x8126
    (fun t => readReg t 1 = 2 && readReg t 15 = 1 && readReg t 2 = 0xAA) = true := by decide
theorem test_shr_flag : after (regs2 15 7 1 0) 0x8F06 (fun t => readReg t 15 = 0) = true := by decide
theorem test_subnReg : after (regs2 1 0x03 2 0x0A) 0x8127 (fun t => readReg t 1 = 7 && readReg t 15 = 1) = true := by decide
theorem test_subnReg_with_flag : after (regs2 1 2 15 9) 0x81F7 (fun t => readReg t 1 = 0xFF && readReg t 15 = 1) = true := by decide
theorem test_shl : after (regs2 1 0x81 2 0xAA) 0x812E
    (fun t => readReg t 1 = 2 && readReg t 15 = 1 && readReg t 2 = 0xAA) = true := by decide
theorem test_shl_flag : after (regs2 15 0x81 1 0) 0x8F0E (fun t => readReg t 15 = 2) = true := by decide
theorem test_rnd_takes_the_next_draw : after { State.reset with draws := [0xA7, 0x11] } 0xC10F
    (fun t => readReg t 1 = 7 && t.draws = [0x11]) = true := by decide

/-! ### Index register and memory (V-MEM) -/

theorem test_ldI : after State.reset 0xAFFF (fun t => t.i = 0x0FFF) = true := by decide
theorem test_addI : after (withI (regs2 2 1 15 9) 0xFFFF) 0xF21E (fun t => t.i = 0 && readReg t 15 = 9) = true := by decide
theorem test_ldF : after (regs2 3 0xFF 0 0) 0xF329 (fun t => t.i = 0x04FB) = true := by decide
theorem test_ldB : after (withI (regs2 1 0x7B 0 0) 0xFFD) 0xF133 (fun t => readRange t 0xFFD 3 = [1, 2, 3]) = true := by decide
theorem test_ldB_fault : after (withI (regs2 1 0x7B 0 0) 0xFFE) 0xF133
    (fun t => t.fault = some (.memFault .write 0xFFE 3) && t.pc = 0x200 && readRange t 0xFFE 2 = [0, 0]) = true := by decide
theorem test_storeRegs : after (withI (regs2 0 0xAB 1 0xCD) 0x300) 0xF055
    (fun t => readRange t 0x300 2 = [0xAB, 0] && t.i = 0x300) = true := by decide
theorem test_storeRegs_fault : after (withI (regs2 0 0xAB 1 0xCD) 0xFF1) 0xFF55
    (fun t => t.fault = some (.memFault .write 0xFF1 16) && t.pc = 0x200 && readByte t 0xFF1 = 0) = true := by decide
theorem test_loadRegs : after (withI (writeRange (regs2 3 0x77 0 0) 0x300 [2, 3, 4, 5]) 0x300) 0xF265
    (fun t => readReg t 0 = 2 && readReg t 1 = 3 && readReg t 2 = 4 && readReg t 3 = 0x77 && t.i = 0x300) = true := by decide
theorem test_loadRegs_fault : after (withI (regs2 0 1 1 2) 0xFFF) 0xF165
    (fun t => t.fault = some (.memFault .read 0xFFF 2) && readReg t 0 = 1 && t.pc = 0x200) = true := by decide

/-! ### Display (V-DRW, V-CLS) -/

/-- One sprite row at 0x300, I there, the column in V0 (V-DRW-1). -/
def oneRow (row column : Byte) : State := withI (writeByte (regs2 0 column 1 0) 0x300 row) 0x300

theorem test_drw_wraps : after (oneRow 0xFF 60) 0xD011
    (fun t => [60, 61, 62, 63, 0, 1, 2, 3].all (fun px => pixelAt t.fb px 0) && !pixelAt t.fb 4 0 && !pixelAt t.fb 59 0 &&
      readReg t 15 = 0) = true := by decide
theorem test_drw_collides : after { oneRow 0x18 0 with fb := (blit clearDisplay 0 0 [0xFF]).1 } 0xD011
    (fun t => pixelAt t.fb 2 0 && !pixelAt t.fb 3 0 && !pixelAt t.fb 4 0 && pixelAt t.fb 5 0 && readReg t 15 = 1) = true := by
  decide
theorem test_drw_empty_sprite : after (withI (regs2 15 7 0 0) 0xFFFF) 0xD010
    (fun t => t.fb = clearDisplay && readReg t 15 = 0 && t.fault = none) = true := by decide
theorem test_cls : after { regs2 15 1 0 0 with fb := setPixel (setPixel clearDisplay 4 3 true) 63 31 true } 0x00E0
    (fun t => t.fb = clearDisplay && readReg t 15 = 1) = true := by decide

/-! ### Keypad and timers, instruction side (V-KEY, V-TMR) -/

theorem test_skp : after (keyDown 5 (regs2 1 5 0 0)) 0xE19E (fun t => t.pc = 0x204) = true := by decide
theorem test_skp_fault : after (regs2 1 0x10 0 0) 0xE19E
    (fun t => t.fault = some (.keyCodeFault 0x10) && t.pc = 0x200) = true := by decide
theorem test_sknp : after (keyDown 5 (regs2 1 5 0 0)) 0xE1A1 (fun t => t.pc = 0x202) = true := by decide
theorem test_ldVxDt : after { State.reset with dt := ⟨60, 0⟩ } 0xF107 (fun t => readReg t 1 = 0x3C && t.dt.count = 60) = true := by
  decide
theorem test_ldVxK_waits : after (regs2 1 9 0 0) 0xF10A (fun t => t.pc = 0x200 && readReg t 1 = 9 && t.fault = none) = true := by
  decide
theorem test_ldVxK_lowest : after (keyDown 3 (keyDown 7 State.reset)) 0xF10A
    (fun t => readReg t 1 = 3 && t.pc = 0x202) = true := by decide
theorem test_ldDtVx : after { regs2 1 0x3C 0 0 with dt := ⟨0, 7⟩ } 0xF115 (fun t => t.dt = ⟨60, 7⟩) = true := by decide
theorem test_ldStVx : after (regs2 1 2 0 0) 0xF118 (fun t => t.st.count = 2 && soundActive t) = true := by decide

/-! ### Unrecognised words (R76) -/

theorem test_unrecognised : after State.reset 0xFFFF
    (fun t => t = { State.reset.withFetchWord 16 0xFFFF with pc := 0x202 }) = true := by decide

/-! ### The timer device (V-TT) and Tick (V-TK, P8, P11, P12) -/

theorem test_timer_catches_up : timerTick 60 ⟨5, 0⟩ = ⟨3, 10⟩ := by decide
theorem test_timer_stops_at_zero : timerTick 1000 ⟨2, 0⟩ = ⟨0, 950⟩ := by decide
theorem test_timer_idle_drops_time : timerTick 0 ⟨0, 24⟩ = ⟨0, 0⟩ := by decide
theorem test_tick_runs_due_cycles : afterHost (resetWith [0x70, 0x01, 0x12, 0x00] { State.reset with host := [] }) (.tick 7 [])
    (fun t => readReg t 0 = 1 && t.pc = 0x200 && t.cpuAcc = 1) = true := by decide
theorem test_tick_stops_at_a_fault : afterHost (resetWith [0x60, 0x01, 0x61, 0x10, 0xE1, 0x9E, 0x60, 0x02] State.reset) (.tick 14 [])
    (fun t => t.fault = some (.keyCodeFault 0x10) && t.pc = 0x204 && t.cpuAcc = 8 && readReg t 0 = 1) = true := by decide
theorem test_tick_draws : afterHost (resetWith [0xC0, 0xFF, 0xC1, 0x0F, 0x80, 0x14, 0x12, 0x06] State.reset) (.tick 12 [0xF3, 0xAC])
    (fun t => readReg t 0 = 0xFF && readReg t 1 = 0x0C && readReg t 15 = 0 && t.pc = 0x206) = true := by decide
theorem test_stopped_cpu_timers_run : afterHost { State.reset with fault := some .stackOverflow, st := ⟨59, 23⟩, cpuAcc := 3 } (.tick 3 [])
    (fun t => t.st = ⟨58, 1⟩ && t.cpuAcc = 3 && t.pc = 0x200) = true := by decide
theorem test_reset_loads_rom : afterHost { State.reset with pc := 0x400, fault := some .stackOverflow } (.reset [0x60, 0x05])
    (fun t => t = { State.reset with mem := [(0x200, 0x60), (0x201, 0x05)] }) = true := by decide
theorem test_reset_rejects_odd_rom : step { State.reset with host := [.reset [0x60]] } = .refused (.romRejected 1) := by rfl
theorem test_font_digit_ten : readRange State.reset 0x32 5 = [0xF0, 0x90, 0xF0, 0x90, 0x90] := by decide

/-! ### Witnesses: for every statement with hypotheses, concrete states and operands that meet them, clause by clause -/

open Sys2Proof.Safety

/-- The reset state with one call outstanding. -/
def oneCall : State := { State.reset with sp := 1, stack := State.reset.stack.set 1 0x206, pc := 0x210 }

theorem oneCall_inv : Inv oneCall where
  memory := by decide
  stackPointer := by decide
  returnAddresses := by decide
  entryZero := by decide
  programCounter := by decide

theorem witness_DecodeOfEncodeIsIdentity : Instr.WellFormed (.unrecognised 0x0042) = true := by decide
theorem witness_DecodeSelectsTheMatchingRow :
    (∀ r ∈ table, r.Matches 0x812F = false) ∧ (∃ r ∈ table, r.Matches 0x812E = true) := by decide
theorem witness_StepRunsTheDecodedInstruction :
    (Running { State.reset with pc := 0xFFE } ∧ ({ State.reset with pc := 0xFFE } : State).pc.toNat ≤ 0xFFE) ∧
    (Running { State.reset with pc := 0xFFF } ∧ 0xFFE < ({ State.reset with pc := 0xFFF } : State).pc.toNat) := by
  exact ⟨⟨⟨rfl, rfl⟩, by decide⟩, ⟨⟨rfl, rfl⟩, by decide⟩⟩
theorem witness_UnrecognisedWordIsANoOp :
    (∀ r ∈ table, r.Matches 0x0000 = false) ∧ State.reset.pc.toNat ≤ 0xFFE ∧
    readWord State.reset State.reset.pc.toNat = 0x0000 := by
  exact ⟨by decide, by decide, by decide⟩
theorem witness_StoredCodeIsFetchedNext :
    Running { State.reset with pc := 0xFFE, i := 0xFFE } ∧ Memory.wf State.reset.mem = true ∧ 1 ≤ (1 : Reg).val ∧
    (0xFFE : Word).toNat + (1 : Reg).val ≤ 0xFFF ∧
    ∃ t, exec (.storeRegs 1) { State.reset with pc := 0xFFE, i := 0xFFE } = .next t :=
  ⟨⟨rfl, rfl⟩, by decide, by decide, by decide, _, rfl⟩
theorem witness_EndOfRunIsAFixedPoint : EndOfRun (writeRange State.reset 0x200 [0x12, 0x00]) := by
  refine ⟨rfl, by decide, by decide⟩
theorem witness_FaultingCycleIsUndone :
    Running State.reset ∧
    ∃ t, step (State.reset.withFetchWord 16 0x00EE) = .next t ∧ t.fault = some .stackUnderflow := ⟨⟨rfl, rfl⟩, _, rfl, rfl⟩
def latched (op : HostOp) : State := { State.reset with fault := some .stackOverflow, host := [op] }
theorem latched_tick_notReset : NextIsNotReset (latched (.tick 3 [])) := fun rom rest h => by
  simp [latched] at h
theorem latched_reset_isReset : ¬ NextIsNotReset (latched (.reset [])) := fun h => h [] [] rfl
theorem witness_OnlyResetLeavesAFault :
    (latched (.tick 3 [])).fault = some .stackOverflow ∧ (∃ t, step (latched (.tick 3 [])) = .next t) ∧
    NextIsNotReset (latched (.tick 3 [])) ∧ (∃ t, step (latched (.reset [])) = .next t) ∧
    ¬ NextIsNotReset (latched (.reset [])) := ⟨rfl, ⟨_, rfl⟩, latched_tick_notReset, ⟨_, rfl⟩, latched_reset_isReset⟩
theorem witness_FaultsAreThoseListed :
    State.reset.fault = none ∧ ∃ t, exec (.drw 0 0 2) (withI State.reset 0xFFF) = .next t ∧
      t.fault = some (.memFault .read 0xFFF 2) := ⟨rfl, _, rfl, rfl⟩
theorem witness_InstructionFaultsExactlyOutsideItsBounds :
    twoCalls.fault = none ∧ twoCalls.sp.toNat ≤ 15 ∧ WithinBounds .ret twoCalls ∧ ¬ WithinBounds .ret State.reset := by
  refine ⟨rfl, by decide, ?_, ?_⟩
  · show 1 ≤ (2 : Byte).toNat; decide
  · show ¬ 1 ≤ (0 : Byte).toNat; decide
theorem witness_StepKeepsInvariant : Inv oneCall ∧ ∃ t, step (oneCall.withFetchWord 16 0x00EE) = .next t := ⟨oneCall_inv, _, rfl⟩
theorem witness_StepAlwaysAnswersNext :
    Inv { oneCall with host := [.reset [0x00, 0xE0]] } ∧ NextRomIsGood { oneCall with host := [.reset [0x00, 0xE0]] } :=
  ⟨⟨oneCall_inv.memory, oneCall_inv.stackPointer, oneCall_inv.returnAddresses, oneCall_inv.entryZero, oneCall_inv.programCounter⟩,
    by intro rom rest h; cases h; decide⟩
theorem witness_CpuAccumulatorStaysBelowPeriod :
    State.reset.cpuAcc < Config.cpuPeriod ∧
    ∃ t, step { State.reset with host := [.tick 5 []] } = .next t ∧ t.fault = none := ⟨by decide, _, rfl, rfl⟩
theorem witness_AccessMatrixIsKept : ∃ t, exec (.drw 0 1 3) State.reset = .next t := ⟨_, rfl⟩
theorem witness_OnlyNamedRegistersAreWritten :
    (∃ t, exec (.loadRegs 2) State.reset = .next t) ∧ ¬ MayWriteReg (.loadRegs 2) 3 := by
  refine ⟨⟨_, rfl⟩, ?_⟩
  show ¬ ((3 : Reg) ≤ 2); decide
theorem witness_WriteByteReplacesOneByte : Memory.wf State.reset.mem = true ∧ 4095 ≤ 4095 := by decide
theorem witness_CanonicalMemoriesThatReadAlikeAreEqual :
    Memory.wf [(0x000, 0x11), (0xFFF, 0x22)] = true ∧ Memory.wf [(0x000, 0xF0)] = false := by decide
theorem witness_ReturnPopsOrUnderflows :
    State.reset.sp = 0 ∧ (1 ≤ (1 : Fin 16).val ∧ oneCall.sp.toNat = (1 : Fin 16).val) ∧
    ({ oneCall with sp := 15 } : State).sp.toNat = (15 : Fin 16).val ∧ 15 < ({ oneCall with sp := 16 } : State).sp.toNat := by
  decide
theorem witness_CallPushesOrOverflows :
    ({ oneCall with sp := 15 } : State).sp = 15 ∧ ({ oneCall with sp := 14 } : State).sp.toNat < 15 ∧
    15 < ({ oneCall with sp := 16 } : State).sp.toNat := by decide
theorem witness_ReturnAfterCallComesBack :
    ({ oneCall with sp := 14 } : State).sp.toNat < 15 ∧ ∃ t, exec (.call 0x300) { oneCall with sp := 14 } = .next t :=
  ⟨by decide, _, rfl⟩
theorem witness_RegisterSkips : 0 < 1 ∧ 15 < 16 := by decide
theorem witness_SubtractSetsStrictGreater :
    ((1 : Reg) ≠ 15 ∧ (2 : Reg) ≠ 15) ∧
    (readReg (regs2 1 3 2 10) 1).toNat = 3 ∧ (readReg (regs2 1 3 2 10) 2).toNat = 10 := by decide
theorem witness_ShiftRightHalves : (1 : Reg) ≠ 15 ∧ (14 : Reg) ≠ 15 := by decide
theorem witness_RandomByteIsAMaskedDraw :
    ({ State.reset with draws := [0xA7, 0x11] } : State).draws = 0xA7 :: [0x11] ∧ State.reset.draws = [] := by decide
theorem witness_BcdStoresThreeDigits :
    Memory.wf (withI State.reset 4093).mem = true ∧ (withI State.reset 4093).i.toNat + 2 ≤ 4095 ∧
    4095 < (withI State.reset 4094).i.toNat + 2 := by decide
theorem witness_StoreRegistersWritesTheRange :
    Memory.wf (withI State.reset 4080).mem = true ∧ (withI State.reset 4080).i.toNat + (15 : Reg).val ≤ 4095 ∧
    4095 < (withI State.reset 4081).i.toNat + (15 : Reg).val := by decide
theorem witness_LoadRegistersReadsTheRange :
    (withI State.reset 4095).i.toNat + (0 : Reg).val ≤ 4095 ∧ 4095 < (withI State.reset 4095).i.toNat + (1 : Reg).val := by
  decide
theorem witness_LoadAfterStoreRestoresRegisters :
    Memory.wf (withI State.reset 0x300).mem = true ∧ (withI State.reset 0x300).i.toNat + (2 : Reg).val ≤ 4095 ∧
    ∃ t, exec (.storeRegs 2) (withI State.reset 0x300) = .next t := ⟨by decide, by decide, _, rfl⟩
theorem witness_DrawTogglesCoveredPixels :
    ((withI State.reset 4093).i.toNat + (3 : Fin 16).val - 1 ≤ 4095) ∧ ¬ (0 < (0 : Fin 16).val) ∧
    (0 < (3 : Fin 16).val ∧ 4095 < (withI State.reset 4094).i.toNat + (3 : Fin 16).val - 1) ∧
    Covers 60 31 [0xFF, 0x01] 3 0 ∧ pixelAt (setPixel clearDisplay 3 0 true) 3 0 = true := by
  refine ⟨by decide, by decide, by decide, ⟨1, 7, by decide, ⟨0x01, rfl, by decide⟩, by decide, by decide⟩, by decide⟩
theorem witness_BlitIsItsOwnInverse : ([0xFF, 0x81, 0xFF] : List Byte).length ≤ 16 := by decide
theorem witness_KeySkips :
    (readReg (regs2 1 15 0 0) 1).toNat = (15 : KeyCode).val ∧ 15 < (readReg (regs2 1 16 0 0) 1).toNat := by decide
theorem witness_KeyWaitRetriesOrTakesTheLowestKey :
    (∀ k : KeyCode, State.reset.keys.get k = false) ∧ (keyDown 3 (keyDown 7 State.reset)).keys.get 3 = true ∧
    ∀ j : KeyCode, j < 3 → (keyDown 3 (keyDown 7 State.reset)).keys.get j = false := by decide
theorem witness_TimerTickDecrementsOncePerPeriod : (⟨0, 24⟩ : Timer).count = 0 ∧ (⟨2, 0⟩ : Timer).count ≠ 0 := by decide
theorem witness_TickWithoutACycle :
    ({ State.reset with fault := some .stackOverflow } : State).fault = some .stackOverflow ∧
    State.reset.fault = none ∧ State.reset.cpuAcc + 2 < Config.cpuPeriod := by decide
theorem witness_TickRunsTheDueCycles :
    (∃ u, runCycles 1 (tickTimers 5 [] State.reset) = .next u ∧ u.fault = none ∧
      1 = (State.reset.cpuAcc + 5) / Config.cpuPeriod) ∧
    (∃ u w, runCycles 0 (tickTimers 3 [] { State.reset with pc := 0xFFF }) = .next u ∧ u.fault = none ∧
      0 < (State.reset.cpuAcc + 3) / Config.cpuPeriod ∧ cpuCycle u = .next w ∧ w.fault = some (.memFault .fetch 0xFFF 2)) :=
  ⟨⟨_, rfl, rfl, by decide⟩, ⟨_, _, rfl, rfl, by decide, rfl, rfl⟩⟩
def tickPending : State := { State.reset with host := [.tick 5 [0xA7], .keyDown 4] }
theorem witness_StepPerformsThePendingTick :
    tickPending.host = .tick 5 [0xA7] :: [.keyDown 4] ∧
    ∃ t, step tickPending = .next t ∧ t.pc = 0x202 ∧ t.cpuAcc = 2 := ⟨rfl, _, rfl, rfl, rfl⟩
theorem witness_AddRegistersSetsCarry :
    (∃ t, exec (.addReg 15 1) (regs2 15 0xFF 1 3) = .next t ∧ readReg t 15 = 1) ∧
    (∃ t, exec (.addReg 1 15) (regs2 15 0xFF 1 3) = .next t ∧ readReg t 1 = 2 ∧ readReg t 15 = 1) :=
  ⟨⟨_, rfl, by decide⟩, ⟨_, rfl, by decide, by decide⟩⟩
theorem witness_CpuTimeMayBeSplit : ∃ t, cpuTick 4 State.reset = .next t ∧ t.fault = none := ⟨_, rfl, rfl⟩
theorem witness_KeyEventsChangeOneKey :
    ({ State.reset with host := [.keyDown 5, .tick 3 []] } : State).host = .keyDown 5 :: [.tick 3 []] ∧
    ({ State.reset with host := [.keyUp 5] } : State).host = .keyUp 5 :: [] := by decide
theorem witness_PickKeyIsTheSmallestDown :
    (∀ k : KeyCode, State.reset.keys.get k = false) ∧ pickKey (keyDown 15 State.reset).keys = some 15 := by decide
theorem witness_ResetSetsEveryPieceOfState :
    ({ State.reset with host := [.reset [0x60, 0x05]] } : State).host = .reset [0x60, 0x05] :: [] ∧
    ([0x60, 0x05] : List Byte).length ≤ 3584 ∧ ([0x60, 0x05] : List Byte).length % 2 = 0 ∧
    ([0x60] : List Byte).length % 2 = 1 ∧ (List.replicate 3584 (0 : Byte)).length ≤ 3584 ∧
    3584 < (List.replicate 3586 (0 : Byte)).length := by
  refine ⟨by decide, by decide, by decide, by decide, ?_, ?_⟩
  · rw [List.length_replicate]
  · rw [List.length_replicate]; decide

end Sys2Proof.Tests
end

/-!
Every step answers a next state (spec 00_scope.md R11). The one stop that an instruction has is a stack index above 15, so
the argument carries one fact through the layers of a step: SP stays within 0 to 15 (10_state.md R26).
-/

namespace Sys2Proof.Proofs

open Sys2Proof.Machine Sys2Proof.Safety

/-- The result is a next state, and SP still indexes the stack in it (10_state.md R26). -/
def AnswersWithStackIndex (r : Result) : Prop := ∃ t, r = .next t ∧ t.sp.toNat ≤ 15

@[simp] theorem answersWithStackIndex_next (t : State) : AnswersWithStackIndex (.next t) ↔ t.sp.toNat ≤ 15 := by
  simp [AnswersWithStackIndex]

@[simp] theorem answersWithStackIndex_raiseFault (f : FaultRecord) (s : State) :
    AnswersWithStackIndex (raiseFault f s) ↔ s.sp.toNat ≤ 15 := by
  simp [raiseFault_eq]

/-! ### Instructions -/

/-- The shape of an instruction that checks its bound first: it raises its fault or answers a state with the same SP. -/
theorem answers_of_check {c : Prop} [Decidable c] {f : FaultRecord} {s t : State} (h : s.sp.toNat ≤ 15)
    (ht : t.sp = s.sp) : AnswersWithStackIndex (if c then raiseFault f s else .next t) := by
  split <;> simp [ht, h]

/-- RET finds the entry it pops, since SP is below the 16 entries of the stack (40_flow.md R101). -/
theorem execRet_answers {s : State} (h : s.sp.toNat ≤ 15) : AnswersWithStackIndex (execRet s) := by
  unfold execRet
  split
  · simpa using h
  · next hne =>
    have hentry : readStack s s.sp.toNat = some s.stack[s.sp.toNat] := Vector.getElem?_eq_getElem (by omega)
    rw [hentry, answersWithStackIndex_next]
    show (s.sp - 1).toNat ≤ 15
    bv_omega

/-- CALL either overflows at SP = 15 or is below it (R103). -/
theorem execCall_answers (nnn : BitVec 12) {s : State} (h : s.sp.toNat ≤ 15) :
    AnswersWithStackIndex (execCall nnn s) := by
  unfold execCall maxSp
  split
  · simpa using h
  · next hne =>
    have hlt : s.sp.toNat < (15 : Byte).toNat := by bv_omega
    rw [if_pos hlt, answersWithStackIndex_next]
    show (s.sp + 1).toNat ≤ 15
    bv_omega

/-- `Fx0A` leaves SP alone with and without a key down (44_keypad_timer.md R153). -/
theorem execLdVxK_answers (x : Reg) {s : State} (h : s.sp.toNat ≤ 15) : AnswersWithStackIndex (execLdVxK x s) := by
  unfold execLdVxK
  split <;> simpa using h

/-- Every instruction answers a next state and keeps SP in its range: RET and CALL by their own checks, and the others do
not write SP. -/
theorem exec_answers (i : Instr) {s : State} (h : s.sp.toNat ≤ 15) : AnswersWithStackIndex (exec i s) := by
  cases i with
  | ret => exact execRet_answers h
  | call nnn => exact execCall_answers nnn h
  | ldVxK x => exact execLdVxK_answers x h
  | drw x y n => exact answers_of_check h rfl
  | ldB x => exact answers_of_check h (writeRange_sp ..)
  | storeRegs x => exact answers_of_check h (writeRange_sp ..)
  | loadRegs x => exact answers_of_check h rfl
  | skp x => exact answers_of_check h (skipIf_sp ..)
  | sknp x => exact answers_of_check h (skipIf_sp ..)
  | _ => exact ⟨_, rfl, by simpa using h⟩

/-! ### Cycles and host operations -/

/-- A cycle takes the fetch fault or executes an instruction (30_encoding.md R74). -/
theorem cpuCycle_answers {s : State} (h : s.sp.toNat ≤ 15) : AnswersWithStackIndex (cpuCycle s) := by
  rcases Nat.lt_or_ge 0xFFE s.pc.toNat with hpc | hpc
  · simpa [cpuCycle_of_no_fetch hpc] using h
  · rw [cpuCycle_of_fetch hpc]
    exact exec_answers _ h

/-- The catch-up loop answers a next state for any bound on its turns (60_exceptions.md R177). -/
theorem cpuLoop_answers (n : Nat) {s : State} (h : s.sp.toNat ≤ 15) : AnswersWithStackIndex (cpuLoop n s) := by
  induction n generalizing s with
  | zero => exact ⟨s, rfl, h⟩
  | succ n ih =>
    obtain ⟨t, hcycle, ht⟩ := cpuCycle_answers h
    simp only [cpuLoop, hcycle]
    split
    · simpa using h
    · split
      · simpa using ht
      · exact ih ht

theorem cpuTick_answers (dt : Nat) {s : State} (h : s.sp.toNat ≤ 15) : AnswersWithStackIndex (cpuTick dt s) := by
  unfold cpuTick
  split
  · simpa using h
  · exact cpuLoop_answers _ h

/-- A Tick answers a next state: the timers before the CPU's part do not touch SP (R176). -/
theorem machineTick_answers (dt : Nat) (draws : List Byte) {s : State} (h : s.sp.toNat ≤ 15) :
    AnswersWithStackIndex (machineTick dt draws s) := by
  obtain ⟨t, htick, ht⟩ := cpuTick_answers dt (s := tickTimers dt draws s) h
  unfold machineTick
  rw [htick]
  exact ⟨_, rfl, ht⟩

/-- The precondition of Reset in the numbers of 70_reset_and_hazards.md R191. -/
theorem romAccepted_iff (rom : List Byte) : romAccepted rom = true ↔ rom.length ≤ 3584 ∧ rom.length % 2 = 0 := by
  rw [romAccepted, Bool.and_eq_true, decide_eq_true_eq, decide_eq_true_eq]
  rfl

/-- Every host operation but a Reset with an excluded ROM answers a next state (60_exceptions.md R182). -/
theorem hostOp_answers {op : HostOp} {s : State} (h : s.sp.toNat ≤ 15)
    (hrom : ∀ rom, op = .reset rom → romAccepted rom = true) : AnswersWithStackIndex (hostOp op s) := by
  cases op with
  | reset rom => simp [hostOp, hrom rom rfl, resetWith_eq, State.reset]
  | tick dt draws => exact machineTick_answers dt draws h
  | keyDown code => exact ⟨_, rfl, h⟩
  | keyUp code => exact ⟨_, rfl, h⟩

/-- A step answers a next state as soon as SP indexes the stack and the next operation is no Reset with an excluded ROM. -/
theorem step_answers {s : State} (h : s.sp.toNat ≤ 15) (hrom : NextRomIsGood s) : AnswersWithStackIndex (step s) := by
  cases hhost : s.host with
  | cons op rest =>
    rw [step_of_pending hhost]
    refine hostOp_answers h fun rom hop => (romAccepted_iff rom).mpr (hrom rom rest ?_)
    rw [hhost, hop]
  | nil =>
    cases hfault : s.fault with
    | some f => simpa [step_of_stopped hfault hhost] using h
    | none =>
      rw [step_of_running ⟨hfault, hhost⟩]
      exact cpuCycle_answers h

/-- Settles O17: of the invariant only the range of SP is needed; it is carried through every cycle of a Tick. -/
theorem stepAlwaysAnswersNext : Obligations.StepAlwaysAnswersNext := by
  intro s hinv hrom
  obtain ⟨t, hstep, -⟩ := step_answers hinv.stackPointer hrom
  exact ⟨t, hstep⟩

end Sys2Proof.Proofs

/-!
Rules for partial correctness, one per operation of the machine, and the frame of an instruction: the parts of the state
outside its row of the access matrix are the same data afterwards (spec 10_state.md R39).
-/

namespace Sys2Proof.Proofs

open Sys2Proof.Machine Sys2Proof.Safety

/-! ### What holds of the next state, if there is one -/

/-- If the result is a next state, that state meets `P`. -/
def EveryNext (P : State → Prop) (r : Result) : Prop := ∀ t, r = .next t → P t

@[simp] theorem everyNext_next {P : State → Prop} {t : State} : EveryNext P (.next t) ↔ P t := by simp [EveryNext]

@[simp] theorem everyNext_fault {P : State → Prop} {f : Machine.Fault} : EveryNext P (.fault f) := by simp [EveryNext]

@[simp] theorem everyNext_refused {P : State → Prop} {r : Refusal} : EveryNext P (.refused r) := by simp [EveryNext]

theorem EveryNext.imp {P Q : State → Prop} {r : Result} (h : ∀ t, P t → Q t) (hr : EveryNext P r) : EveryNext Q r :=
  fun t ht => h t (hr t ht)

/-- The shape of an instruction that checks its bound first: its fault is taken, or it answers a state. -/
theorem everyNext_check {P : State → Prop} {c : Prop} [Decidable c] {f : FaultRecord} {s t : State}
    (hfault : P (takeFault (s.pc - 2) f s)) (hnext : ¬ c → P t) : EveryNext P (if c then raiseFault f s else .next t) := by
  split
  · exact everyNext_next.mpr hfault
  · next hc => exact everyNext_next.mpr (hnext hc)

/-- `Fx0A` writes the key or goes back to its own address (44_keypad_timer.md R153). -/
theorem execLdVxK_everyNext {P : State → Prop} {x : Reg} {s : State} (hkey : ∀ b, P (writeReg s x b))
    (hwait : P { s with pc := s.pc - 2 }) : EveryNext P (execLdVxK x s) := by
  unfold execLdVxK
  split
  · exact everyNext_next.mpr (hkey _)
  · exact everyNext_next.mpr hwait

/-- RET underflows or pops the entry that SP indexes (40_flow.md R101). -/
theorem execRet_everyNext {P : State → Prop} {s : State} (hfault : P (takeFault (s.pc - 2) .stackUnderflow s))
    (hpop : ∀ j : Fin 16, P { s with pc := s.stack.get j, sp := s.sp - 1 }) : EveryNext P (execRet s) := by
  unfold execRet
  split
  · exact everyNext_next.mpr hfault
  · split
    · next w hw =>
      obtain ⟨hlt, rfl⟩ := Vector.getElem?_eq_some_iff.mp hw
      exact everyNext_next.mpr (hpop ⟨_, hlt⟩)
    · exact everyNext_fault

/-- CALL overflows or pushes the PC it was given above the entry that SP indexes, which is at most entry 14 (R103). -/
theorem execCall_everyNext {P : State → Prop} {nnn : BitVec 12} {s : State}
    (hfault : P (takeFault (s.pc - 2) .stackOverflow s))
    (hpush : s.sp.toNat < 15 → P { push s s.pc with pc := zext12 nnn }) : EveryNext P (execCall nnn s) := by
  unfold execCall
  split
  · exact everyNext_next.mpr hfault
  · split
    · next hlt => exact everyNext_next.mpr (hpush hlt)
    · exact everyNext_fault

/-! ### The frame of an instruction -/

/-- A part of the state is the same data before and after. -/
def SameData (s t : State) : Part → Prop
  | .regs => t.v = s.v
  | .index => t.i = s.i
  | .pc => t.pc = s.pc
  | .stack => t.sp = s.sp ∧ t.stack = s.stack
  | .memory => t.mem = s.mem
  | .display => t.fb = s.fb
  | .keys => t.keys = s.keys
  | .delay => t.dt = s.dt
  | .sound => t.st = s.st
  | .cpuAcc => t.cpuAcc = s.cpuAcc
  | .fault => t.fault = s.fault
  | .inputs => t.draws = s.draws ∧ t.drawCount = s.drawCount ∧ t.host = s.host

/-- The same data reads the same. -/
theorem SameData.same {s t : State} {p : Part} (h : SameData s t p) : Same s t p := by
  cases p with
  | regs => exact readReg_congr h
  | stack =>
    obtain ⟨hsp, hstack⟩ := h
    exact ⟨hsp, fun j => by rw [hstack]⟩
  | memory => exact readByte_congr h
  | display => exact fun px py => by rw [show t.fb = s.fb from h]
  | _ => exact h

theorem SameData.trans {s t u : State} {p : Part} (h : SameData s t p) (h' : SameData t u p) : SameData s u p := by
  cases p with
  | stack => exact ⟨h'.1.trans h.1, h'.2.trans h.2⟩
  | inputs => exact ⟨h'.1.trans h.1, h'.2.1.trans h.2.1, h'.2.2.trans h.2.2⟩
  | _ => exact Eq.trans h' h

/-- Every part but those listed is the same data. -/
def Keeps (ps : List Part) (s t : State) : Prop := ∀ p, p ∉ ps → SameData s t p

theorem Keeps.trans {ps : List Part} {s t u : State} (h : Keeps ps s t) (h' : Keeps ps t u) : Keeps ps s u :=
  fun p hp => (h p hp).trans (h' p hp)

/-! A write to one part keeps the others: one rule per operation that writes the state. -/

theorem keeps_writeReg {ps : List Part} {s : State} {x : Reg} {b : Byte} (h : .regs ∈ ps := by simp [mayWrite]) :
    Keeps ps s (writeReg s x b) := by
  intro p hp
  cases p <;> simp_all [SameData]

theorem keeps_loadRegsFrom {ps : List Part} {s : State} {base : Word} {x : Reg} (h : .regs ∈ ps := by simp [mayWrite]) :
    Keeps ps s (loadRegsFrom s base x) := by
  intro p hp
  cases p <;> simp_all [SameData]

theorem keeps_takeDraw {ps : List Part} {s : State} (h : .inputs ∈ ps := by simp [mayWrite]) : Keeps ps s (takeDraw s).2 := by
  intro p hp
  cases p <;> simp_all [SameData]

theorem keeps_skipIf {ps : List Part} {c : Bool} {s : State} (h : .pc ∈ ps := by simp [mayWrite]) : Keeps ps s (skipIf c s) := by
  intro p hp
  cases p <;> simp_all [SameData]

theorem keeps_writeRange {ps : List Part} {s : State} {base : Nat} {bs : List Byte} (h : .memory ∈ ps := by simp [mayWrite]) :
    Keeps ps s (writeRange s base bs) := by
  intro p hp
  cases p <;> simp_all [SameData]

theorem keeps_takeFault {ps : List Part} {pc0 : Word} {f : FaultRecord} {s : State}
    (h : .pc ∈ ps ∧ .fault ∈ ps := by simp [mayWrite]) : Keeps ps s (takeFault pc0 f s) := by
  intro p hp
  cases p <;> simp_all [SameData]

/-- The frame of the instructions that check a bound first. -/
theorem keeps_check {i : Instr} {c : Prop} [Decidable c] {f : FaultRecord} {s t : State}
    (ht : Keeps (mayWrite i) s t) (h : .pc ∈ mayWrite i ∧ .fault ∈ mayWrite i := by simp [mayWrite]) :
    EveryNext (Keeps (mayWrite i) s) (if c then raiseFault f s else .next t) :=
  everyNext_check (keeps_takeFault h) fun _ => ht

/-- Every instruction leaves the parts outside its row of the access matrix the same data (R39). -/
theorem exec_keeps (i : Instr) (s : State) : EveryNext (Keeps (mayWrite i) s) (exec i s) := by
  cases i with
  | ret =>
    refine execRet_everyNext keeps_takeFault fun j p hp => ?_
    cases p <;> simp [SameData, mayWrite] at hp ⊢
  | call nnn =>
    refine execCall_everyNext keeps_takeFault fun _ p hp => ?_
    cases p <;> simp [SameData, mayWrite] at hp ⊢
  | seImm x kk | sneImm x kk | seReg x y | sneReg x y => exact everyNext_next.mpr keeps_skipIf
  | addReg x y | subReg x y | shr x y | subnReg x y | shl x y =>
    exact everyNext_next.mpr (Keeps.trans keeps_writeReg keeps_writeReg)
  | rnd x kk => exact everyNext_next.mpr (Keeps.trans keeps_takeDraw keeps_writeReg)
  | drw x y n =>
    refine keeps_check fun p hp => ?_
    cases p <;> simp [SameData, mayWrite] at hp ⊢
  | skp x | sknp x => exact keeps_check keeps_skipIf
  | ldVxK x =>
    refine execLdVxK_everyNext (fun b => keeps_writeReg) fun p hp => ?_
    cases p <;> simp [SameData, mayWrite] at hp ⊢
  | ldB x | storeRegs x => exact keeps_check keeps_writeRange
  | loadRegs x => exact keeps_check keeps_loadRegsFrom
  | _ =>
    refine everyNext_next.mpr fun p hp => ?_
    cases p <;> simp [SameData, mayWrite] at hp ⊢

/-- A part that an instruction may not write is the same data afterwards. -/
theorem exec_sameData {i : Instr} {s t : State} {p : Part} (ht : exec i s = .next t) (hp : p ∉ mayWrite i) :
    SameData s t p := exec_keeps i s t ht p hp

end Sys2Proof.Proofs

/-!
Rules for what a step runs besides an instruction: a cycle, the catch-up loop, a Tick, the step itself (spec
60_exceptions.md R176, R177). A property goes through each of them as soon as it goes through its parts.
-/

namespace Sys2Proof.Proofs

open Sys2Proof.Machine Sys2Proof.Safety

/-- A cycle takes the fetch fault or executes an instruction (30_encoding.md R74). -/
theorem cpuCycle_everyNext {P : State → Prop} {s : State}
    (hfault : 0xFFE < s.pc.toNat → P { s with fault := some (.memFault .fetch s.pc 2) })
    (hexec : s.pc.toNat ≤ 0xFFE → ∀ i, EveryNext P (exec i (afterFetch s))) : EveryNext P (cpuCycle s) := by
  rcases Nat.lt_or_ge 0xFFE s.pc.toNat with hpc | hpc
  · rw [cpuCycle_of_no_fetch hpc]
    exact everyNext_next.mpr (hfault hpc)
  · rw [cpuCycle_of_fetch hpc]
    exact hexec hpc _

/-- One turn of the catch-up loop: it ends below a period, or runs a cycle and ends at a fault, or goes on (R177). -/
theorem cpuLoop_succ_everyNext {P : State → Prop} {n : Nat} {s : State} (hdone : s.cpuAcc < 3 → P s)
    (hcycle : 3 ≤ s.cpuAcc → EveryNext (fun t => (t.fault ≠ none → P t) ∧
      (t.fault = none → EveryNext P (cpuLoop n { t with cpuAcc := t.cpuAcc - 3 }))) (cpuCycle s)) :
    EveryNext P (cpuLoop (n + 1) s) := by
  rw [cpuLoop, cpuPeriod_eq]
  split
  · next hlt => exact everyNext_next.mpr (hdone hlt)
  · next hge =>
    split
    · next t ht =>
      obtain ⟨hstop, hgo⟩ := hcycle (by omega) t ht
      split
      · next hf => exact everyNext_next.mpr (hstop (by simpa [Option.isSome_iff_ne_none] using hf))
      · next hf => exact hgo (by simpa using hf)
    · exact everyNext_fault
    · exact everyNext_refused

/-- What every cycle keeps and no accumulator touches, the catch-up loop keeps. -/
theorem cpuLoop_keeps {P : State → Prop} (hcycle : ∀ s, P s → EveryNext P (cpuCycle s))
    (hacc : ∀ s n, P s → P { s with cpuAcc := n }) (n : Nat) {s : State} (h : P s) : EveryNext P (cpuLoop n s) := by
  induction n generalizing s with
  | zero => exact everyNext_next.mpr h
  | succ n ih =>
    exact cpuLoop_succ_everyNext (fun _ => h) fun _ =>
      (hcycle s h).imp fun t ht => ⟨fun _ => ht, fun _ => ih (hacc t _ ht)⟩

/-- The CPU's part of a Tick does nothing when stopped, else it takes in the quanta and runs the loop (R177). -/
theorem cpuTick_everyNext {P : State → Prop} {dt : Nat} {s : State} (hstopped : s.fault ≠ none → P s)
    (hloop : s.fault = none → EveryNext P (cpuLoop (s.cpuAcc + dt) { s with cpuAcc := s.cpuAcc + dt })) :
    EveryNext P (cpuTick dt s) := by
  unfold cpuTick
  split
  · next hf => exact everyNext_next.mpr (hstopped (by simpa [Option.isSome_iff_ne_none] using hf))
  · next hf => exact hloop (by simpa using hf)

/-- A Tick is the timers, then the CPU's part, then the draws that are left dropped (R176; log entry 18). -/
theorem machineTick_everyNext {P : State → Prop} {dt : Nat} {draws : List Byte} {s : State}
    (h : EveryNext (fun t => P { t with draws := [] }) (cpuTick dt (tickTimers dt draws s))) :
    EveryNext P (machineTick dt draws s) := by
  unfold machineTick
  split
  · next t ht => exact everyNext_next.mpr (h t ht)
  · exact everyNext_fault
  · exact everyNext_refused

/-- A Reset is refused, or gives the reset state with its ROM loaded (70_reset_and_hazards.md R190, R191). -/
theorem hostOp_reset_everyNext {P : State → Prop} {rom : List Byte} {s : State}
    (h : rom.length ≤ 3584 → rom.length % 2 = 0 → P (resetWith rom s)) : EveryNext P (hostOp (.reset rom) s) := by
  rw [hostOp]
  split
  · next hrom =>
    obtain ⟨hlen, heven⟩ := (romAccepted_iff rom).mp hrom
    exact everyNext_next.mpr (h hlen heven)
  · exact everyNext_refused

/-- A step performs the pending host operation, or leaves a stopped machine alone, or runs a cycle. -/
theorem step_everyNext {P : State → Prop} {s : State}
    (hpending : ∀ op rest, s.host = op :: rest → EveryNext P (hostOp op { s with host := rest }))
    (hstopped : s.fault ≠ none → P s) (hrunning : Running s → EveryNext P (cpuCycle s)) : EveryNext P (step s) := by
  cases hhost : s.host with
  | cons op rest =>
    rw [step_of_pending hhost]
    exact hpending op rest hhost
  | nil =>
    cases hfault : s.fault with
    | some f =>
      rw [step_of_stopped hfault hhost]
      exact everyNext_next.mpr (hstopped (by simp [hfault]))
    | none =>
      rw [step_of_running ⟨hfault, hhost⟩]
      exact hrunning ⟨hfault, hhost⟩

end Sys2Proof.Proofs

/-!
Every step keeps the machine's invariant (spec 10_state.md R25 to R27). The parts of the invariant go through an instruction
one by one: the form of memory, the stack entries, and PC, which an instruction leaves, moves by 2, or takes from an operand
or from the stack.
-/

namespace Sys2Proof.Proofs

open Sys2Proof.Machine Sys2Proof.Safety

/-! ### The parts of the invariant through an instruction -/

/-- The two stores check their range before they write, and no other instruction writes memory (42_index_memory.md R136). -/
theorem exec_keeps_wf (i : Instr) {s : State} (hm : Memory.wf s.mem = true) :
    EveryNext (fun t => Memory.wf t.mem = true) (exec i s) := by
  cases i with
  | ldB x =>
    refine everyNext_check hm fun hrange => wf_writeRange hm ?_
    simpa [outOfRange_false_iff, bcdDigits] using hrange
  | storeRegs x =>
    refine everyNext_check hm fun hrange => wf_writeRange hm ?_
    simpa [outOfRange_false_iff, regsUpTo_length] using hrange
  | _ =>
    intro t ht
    have hmem : t.mem = s.mem := exec_sameData (p := .memory) ht (by simp [mayWrite])
    rw [hmem]
    exact hm

/-- A stack entry is as before, or it is not entry 0 and holds the pushed post-fetch PC (40_flow.md R103). -/
theorem exec_stackEntry (i : Instr) (s : State) (j : Fin 16) :
    EveryNext (fun t => t.stack.get j = s.stack.get j ∨ j ≠ 0 ∧ t.stack.get j = s.pc) (exec i s) := by
  cases i with
  | ret => exact execRet_everyNext (.inl rfl) fun _ => .inl rfl
  | call nnn =>
    refine execCall_everyNext (.inl rfl) fun hsp => ?_
    have hslot : (s.sp + 1).toNat = s.sp.toNat + 1 := by bv_omega
    simp only [push, Vector.get_eq_getElem, Vector.getElem_setIfInBounds, hslot]
    split
    · next hj => exact .inr ⟨by rintro rfl; simp at hj, rfl⟩
    · exact .inl rfl
  | _ =>
    intro t ht
    obtain ⟨-, hstack⟩ : t.sp = s.sp ∧ t.stack = s.stack := exec_sameData (p := .stack) ht (by simp [mayWrite])
    exact .inl (by rw [hstack])

/-- Where PC can be after an instruction that was given the state `s`. -/
inductive PcAfter (s : State) : Word → Prop
  | stay : PcAfter s s.pc
  | skip : PcAfter s (s.pc + 2)
  | back : PcAfter s (s.pc - 2)
  | jump {w : Word} (h : w.toNat ≤ 0x10FE) : PcAfter s w
  | pop (j : Fin 16) : PcAfter s (s.stack.get j)

theorem pcAfter_skipIf (c : Bool) (s : State) : PcAfter s (skipIf c s).pc := by
  cases c
  · exact .stay
  · exact .skip

theorem zext12_toNat (nnn : BitVec 12) : (zext12 nnn).toNat = nnn.toNat := by
  have := nnn.isLt
  simp [zext12]
  omega

/-- `Bnnn` reaches at most `0xFF + 0xFFF` (40_flow.md R108; 10_state.md R25). -/
theorem zext8_add_zext12_le (b : Byte) (nnn : BitVec 12) : (zext8 b + zext12 nnn).toNat ≤ 0x10FE := by
  have hb := b.isLt
  have hn := nnn.isLt
  have hzext8 : (zext8 b).toNat = b.toNat := by simp [zext8]; omega
  rw [BitVec.toNat_add, hzext8, zext12_toNat]
  omega

/-- A taken fault and a waiting `Fx0A` put PC back, a skip moves it on, and only jumps, CALL and RET set it. -/
theorem exec_pcAfter (i : Instr) (s : State) : EveryNext (fun t => PcAfter s t.pc) (exec i s) := by
  have hjump (nnn : BitVec 12) : PcAfter s (zext12 nnn) := .jump (by have := zext12_toNat nnn; omega)
  cases i with
  | ret => exact execRet_everyNext .back .pop
  | call nnn => exact execCall_everyNext .back fun _ => hjump nnn
  | jp nnn => exact everyNext_next.mpr (hjump nnn)
  | jpV0 nnn => exact everyNext_next.mpr (.jump (zext8_add_zext12_le _ nnn))
  | seImm x kk | sneImm x kk | seReg x y | sneReg x y => exact everyNext_next.mpr (pcAfter_skipIf _ s)
  | skp x | sknp x => exact everyNext_check .back fun _ => pcAfter_skipIf _ s
  | drw x y n => exact everyNext_check .back fun _ => .stay
  | loadRegs x => exact everyNext_check .back fun _ => by rw [loadRegsFrom_pc]; exact .stay
  | ldB x | storeRegs x => exact everyNext_check .back fun _ => by rw [writeRange_pc]; exact .stay
  | ldVxK x => exact execLdVxK_everyNext (fun _ => .stay) .back
  | _ =>
    intro t ht
    have hpc : t.pc = s.pc := exec_sameData (p := .pc) ht (by simp [mayWrite])
    rw [hpc]
    exact .stay

/-- The bound of R25, from a post-fetch PC and from return addresses within theirs. -/
theorem PcAfter.le {s : State} {w : Word} (h : PcAfter s w) (hlow : 2 ≤ s.pc.toNat) (hhigh : s.pc.toNat ≤ 0x1000)
    (hstack : ∀ j : Fin 16, (s.stack.get j).toNat ≤ 0x1000) : w.toNat ≤ 0x10FE := by
  cases h with
  | stay => omega
  | skip => bv_omega
  | back => bv_omega
  | jump h => exact h
  | pop j => have := hstack j; omega

/-! ### The invariant through a step -/

/-- The invariant speaks of memory, SP, the stack and PC alone. -/
theorem inv_congr {s t : State} (h : Inv s) (hmem : t.mem = s.mem) (hsp : t.sp = s.sp) (hstack : t.stack = s.stack)
    (hpc : t.pc = s.pc) : Inv t where
  memory := by rw [hmem]; exact h.memory
  stackPointer := by rw [hsp]; exact h.stackPointer
  returnAddresses := by rw [hstack]; exact h.returnAddresses
  entryZero := by rw [hstack]; exact h.entryZero
  programCounter := by rw [hpc]; exact h.programCounter

/-- An instruction keeps the invariant when the PC it is given is one that a fetch leaves. -/
theorem exec_keeps_inv (i : Instr) {s : State} (h : Inv s) (hlow : 2 ≤ s.pc.toNat) (hhigh : s.pc.toNat ≤ 0x1000) :
    EveryNext Inv (exec i s) := by
  intro t ht
  have hstack j := exec_stackEntry i s j t ht
  obtain ⟨t', ht', hsp⟩ := exec_answers i h.stackPointer
  obtain rfl : t' = t := by simpa [ht'] using ht
  exact {
    memory := exec_keeps_wf i h.memory t' ht
    stackPointer := hsp
    returnAddresses := fun j => by
      rcases hstack j with hj | ⟨-, hj⟩ <;> rw [hj]
      · exact h.returnAddresses j
      · exact hhigh
    entryZero := by
      rcases hstack 0 with h0 | ⟨hne, -⟩
      · rw [h0, h.entryZero]
      · exact absurd rfl hne
    programCounter := (exec_pcAfter i s t' ht).le hlow hhigh h.returnAddresses }

/-- A fetch succeeds up to PC `0xFFE`, so that the post-fetch PC is 2 to `0x1000`. -/
theorem cpuCycle_keeps_inv {s : State} (h : Inv s) : EveryNext Inv (cpuCycle s) := by
  refine cpuCycle_everyNext (fun _ => inv_congr h rfl rfl rfl rfl) fun hpc i => ?_
  have hafter : (afterFetch s).pc.toNat = s.pc.toNat + 2 := by rw [afterFetch_pc]; bv_omega
  have hinv : Inv (afterFetch s) :=
    ⟨h.memory, h.stackPointer, h.returnAddresses, h.entryZero, by omega⟩
  exact exec_keeps_inv i hinv (by omega) (by omega)

theorem machineTick_keeps_inv (dt : Nat) (draws : List Byte) {s : State} (h : Inv s) :
    EveryNext Inv (machineTick dt draws s) := by
  have htimers : Inv (tickTimers dt draws s) := inv_congr h rfl rfl rfl rfl
  refine machineTick_everyNext (EveryNext.imp (P := Inv) (fun t ht => inv_congr ht rfl rfl rfl rfl) ?_)
  exact cpuTick_everyNext (fun _ => htimers) fun _ =>
    cpuLoop_keeps (fun _ => cpuCycle_keeps_inv) (fun _ _ hs => inv_congr hs rfl rfl rfl rfl) _ (inv_congr htimers rfl rfl rfl rfl)

/-- Settles O16. -/
theorem resetMeetsInvariant : Obligations.ResetMeetsInvariant where
  memory := wf_reset
  stackPointer := by decide
  returnAddresses := by decide
  entryZero := by decide
  programCounter := by decide

/-- A Reset gives the reset state with a ROM that fits stored in memory (70_reset_and_hazards.md R190, R191). -/
theorem resetWith_meets_inv {rom : List Byte} (hlen : rom.length ≤ 3584) (s : State) : Inv (resetWith rom s) := by
  rw [resetWith_eq]
  have hreset : Inv State.reset := resetMeetsInvariant
  exact { hreset with memory := wf_writeRange wf_reset (by omega) }

theorem hostOp_keeps_inv (op : HostOp) {s : State} (h : Inv s) : EveryNext Inv (hostOp op s) := by
  cases op with
  | reset rom => exact hostOp_reset_everyNext fun hlen _ => resetWith_meets_inv hlen s
  | tick dt draws => exact machineTick_keeps_inv dt draws h
  | keyDown code | keyUp code => exact everyNext_next.mpr (inv_congr h rfl rfl rfl rfl)

/-- Settles O15: through the host operation pending next, or through one cycle. -/
theorem stepKeepsInvariant : Obligations.StepKeepsInvariant := by
  intro s t h
  have hstep : EveryNext Inv (step s) :=
    step_everyNext (fun op rest _ => hostOp_keeps_inv op (inv_congr h rfl rfl rfl rfl)) (fun _ => h) fun _ =>
      cpuCycle_keeps_inv h
  exact hstep t

end Sys2Proof.Proofs

/-!
The frames of an instruction as the access matrix states them (spec 10_state.md R39): whole parts of the state, and single
registers (R20, R21).
-/

namespace Sys2Proof.Proofs

open Sys2Proof.Machine Sys2Proof.Safety

/-- Settles O19: the parts that an instruction may not write are the same data, so they read the same. -/
theorem accessMatrixIsKept : Obligations.AccessMatrixIsKept := by
  intro i s t ht p hp
  exact (exec_sameData ht hp).same

/-- A register other than those an instruction may write holds its old value: the instruction writes no register, or it
writes others. -/
theorem exec_keeps_reg (i : Instr) (s : State) {r : Reg} (hr : ¬ MayWriteReg i r) :
    EveryNext (fun t => readReg t r = readReg s r) (exec i s) := by
  cases i with
  | ldImm x kk | addImm x kk | ldReg x y | orReg x y | andReg x y | xorReg x y | ldVxDt x =>
    exact everyNext_next.mpr (readReg_writeReg_other s _ hr)
  | addReg x y | subReg x y | shr x y | subnReg x y | shl x y =>
    obtain ⟨hx, hflag⟩ := not_or.mp hr
    refine everyNext_next.mpr ?_
    simp [readReg_writeReg, vf, hx, hflag]
  | rnd x kk =>
    refine everyNext_next.mpr ?_
    rw [readReg_writeReg_other _ _ hr, readReg_congr (takeDraw_v s)]
  | drw x y n => exact everyNext_check rfl fun _ => readReg_writeReg_other _ _ hr
  | ldVxK x => exact execLdVxK_everyNext (fun b => readReg_writeReg_other s b hr) rfl
  | loadRegs x =>
    refine everyNext_check rfl fun _ => ?_
    rw [readReg_loadRegsFrom, if_neg (show ¬ r ≤ x from hr)]
  | _ => exact fun t ht => (exec_sameData (p := .regs) ht (by simp [mayWrite])).same r

/-- Settles O20. -/
theorem onlyNamedRegistersAreWritten : Obligations.OnlyNamedRegistersAreWritten := by
  intro i s t r ht hr
  exact exec_keeps_reg i s hr t ht

end Sys2Proof.Proofs

/-!
With no fault latched less than one CPU period is left over after every step (spec 10_state.md R34; 60_exceptions.md R177):
the catch-up loop spends a period per turn and has turns enough, and nothing but Tick and Reset touches `cpu_acc`.
-/

namespace Sys2Proof.Proofs

open Sys2Proof.Machine Sys2Proof.Safety

/-- With no fault latched less than one CPU period, 3 quanta, is left over. -/
def AccBelowPeriod (s : State) : Prop := s.fault = none → s.cpuAcc < 3

/-- No cycle touches `cpu_acc`. -/
theorem cpuCycle_cpuAcc (s : State) : EveryNext (fun t => t.cpuAcc = s.cpuAcc) (cpuCycle s) :=
  cpuCycle_everyNext (fun _ => rfl) fun _ i t ht => by
    have hacc : t.cpuAcc = (afterFetch s).cpuAcc := exec_sameData (p := .cpuAcc) ht (by cases i <;> simp [mayWrite])
    rw [hacc, afterFetch_cpuAcc]

/-- Every turn spends 3 quanta, so the quanta at the start are turns enough to get below a period. -/
theorem cpuLoop_accBelowPeriod {n : Nat} {s : State} (h : s.cpuAcc ≤ n) : EveryNext AccBelowPeriod (cpuLoop n s) := by
  induction n generalizing s with
  | zero => exact everyNext_next.mpr fun _ => by omega
  | succ n ih =>
    refine cpuLoop_succ_everyNext (fun hlt _ => hlt) fun hdue => (cpuCycle_cpuAcc s).imp fun t ht => ⟨?_, fun _ => ih ?_⟩
    · exact fun hfault hnone => absurd hnone hfault
    · show t.cpuAcc - 3 ≤ n
      omega

theorem machineTick_accBelowPeriod (dt : Nat) (draws : List Byte) (s : State) :
    EveryNext AccBelowPeriod (machineTick dt draws s) := by
  refine machineTick_everyNext (P := AccBelowPeriod) (cpuTick_everyNext ?_ fun _ => ?_)
  · exact fun hfault hnone => absurd hnone hfault
  · exact cpuLoop_accBelowPeriod le_rfl

theorem hostOp_accBelowPeriod (op : HostOp) {s : State} (h : AccBelowPeriod s) :
    EveryNext AccBelowPeriod (hostOp op s) := by
  cases op with
  | reset rom =>
    refine hostOp_reset_everyNext fun _ _ _ => ?_
    rw [resetWith_eq]
    exact Nat.zero_lt_succ 2
  | tick dt draws => exact machineTick_accBelowPeriod dt draws s
  | keyDown code | keyUp code => exact everyNext_next.mpr h

/-- Settles O18. -/
theorem cpuAccumulatorStaysBelowPeriod : Obligations.CpuAccumulatorStaysBelowPeriod := by
  intro s t h
  have hstep : EveryNext AccBelowPeriod (step s) :=
    step_everyNext (fun op rest _ => hostOp_accBelowPeriod op h) (fun _ => h) fun hrun =>
      (cpuCycle_cpuAcc s).imp fun u hu _ => by rw [hu]; exact h hrun.1
  exact hstep t

end Sys2Proof.Proofs

/-!
What a Reset leaves (spec 70_reset_and_hazards.md R190, R191; 10_state.md R38): every piece of state at its reset value, the
font below 0x050 and the ROM from 0x200 on.
-/

namespace Sys2Proof.Proofs

open Sys2Proof.Machine Sys2Proof.Safety

/-- Memory and the model's own inputs are all that a Reset does not leave as in the reset state. -/
theorem keeps_resetWith (rom : List Byte) (s : State) : Keeps [.memory, .inputs] State.reset (resetWith rom s) := by
  intro p hp
  rw [resetWith_eq]
  cases p <;> simp [SameData] at hp ⊢

theorem readByte_resetWith (rom : List Byte) (s : State) (a : Nat) :
    readByte (resetWith rom s) a = readByte (writeRange State.reset 0x200 rom) a :=
  readByte_congr (by rw [resetWith_eq]) a

/-- Outside the ROM a Reset leaves what an unlisted address reads as. -/
theorem readByte_resetWith_outside (rom : List Byte) (s : State) {a : Nat} (h : a < 0x200 ∨ 0x200 + rom.length ≤ a) :
    readByte (resetWith rom s) a = unlistedByte a := by
  rw [readByte_resetWith, readByte_writeRange_outside _ _ h]
  rfl

/-- A Reset stores the ROM at 0x200 (R190). -/
theorem readByte_resetWith_rom {rom : List Byte} (s : State) (hlen : rom.length ≤ 3584) {k : Nat}
    (hk : k < rom.length) : readByte (resetWith rom s) (0x200 + k) = rom[k] := by
  rw [readByte_resetWith]
  exact readByte_writeRange_inside wf_reset (by omega) hk

/-- Below 0x050 unlisted addresses read as the font (R193). -/
theorem unlistedByte_font {a : Nat} (h : a < 0x50) : some (unlistedByte a) = Config.font[a]? := by
  have hlen : a < Config.font.length := h
  rw [unlistedByte, List.getD_eq_getElem _ _ hlen, List.getElem?_eq_getElem hlen]

/-- Settles O56: the ROM is the one part of the reset state that depends on the operation. -/
theorem resetSetsEveryPieceOfState : Obligations.ResetSetsEveryPieceOfState := by
  intro rom rest s hhost
  rw [step_of_pending hhost, hostOp]
  constructor
  · intro hlen heven
    rw [if_pos ((romAccepted_iff rom).mpr ⟨hlen, heven⟩)]
    generalize hafter : ({ s with host := rest } : State) = s'
    have hsame p (hp : p ∉ [.memory, .inputs]) : Same State.reset (resetWith rom s') p :=
      (keeps_resetWith rom s' p hp).same
    obtain ⟨hsp, hstack⟩ := hsame .stack (by decide)
    have hkeys : (resetWith rom s').keys = State.reset.keys := hsame .keys (by decide)
    refine ⟨resetWith rom s', rfl, fun r => ?_, hsame .index (by decide), hsame .pc (by decide), hsp, fun j => ?_,
      fun a ha => ?_, fun a hlow hhigh => ?_, fun k hk => ?_, fun a ha => ?_, fun px py => ?_, fun k => ?_,
      hsame .delay (by decide), hsame .sound (by decide), hsame .cpuAcc (by decide), hsame .fault (by decide), ?_⟩
    · rw [hsame .regs (by decide)]; revert r; decide
    · rw [hstack]; revert j; decide
    · rw [readByte_resetWith_outside rom s' (by omega), unlistedByte_font ha]
    · rw [readByte_resetWith_outside rom s' (by omega), unlistedByte_above hlow]
    · rw [readByte_resetWith_rom s' hlen hk, List.getElem?_eq_getElem hk]
    · rw [readByte_resetWith_outside rom s' (by omega), unlistedByte_above (by omega)]
    · exact (hsame .display (by decide) px py).trans (pixelAt_clearDisplay px py)
    · rw [hkeys]; revert k; decide
    · subst hafter
      exact ⟨rfl, rfl, rfl⟩
  · intro hbad
    rw [if_neg]
    rw [romAccepted_iff]
    omega

end Sys2Proof.Proofs

/-!
Memory (spec 20_memory.md): the range check on naturals (R56 to R58), one byte written (R53, R54), the canonical form
(log entry 20), and a store that the next fetch sees (R59, R66).
-/

namespace Sys2Proof.Proofs

open Sys2Proof.Machine Sys2Proof.Safety

/-- Settles O14: the sum is a natural, so that "ends above 4095" and "reaches past 4096" say the same of an access that is
not empty. -/
theorem rangeCheckIsOnNaturals : Obligations.RangeCheckIsOnNaturals := by
  intro base n
  refine ⟨?_, rfl, rfl, rfl⟩
  rw [outOfRange_iff]
  omega

/-- Settles O21. -/
theorem writeByteReplacesOneByte : Obligations.WriteByteReplacesOneByte := by
  intro s a b hm ha
  exact ⟨readByte_writeByte_same hm a b, fun c hc => readByte_writeByte_other s b hc, wf_writeByte hm b (by omega)⟩

/-! ### The canonical form determines memory -/

theorem memWfFrom_cons_iff (lo k : Nat) (b : Byte) (rest : Memory) :
    memWfFrom lo ((k, b) :: rest) = true ↔ lo ≤ k ∧ k < 4096 ∧ b ≠ unlistedByte k ∧ memWfFrom (k + 1) rest = true := by
  simp only [memWfFrom, Bool.and_eq_true, decide_eq_true_eq, and_assoc]
  rfl

/-- A listed byte is no reset content, so a memory that lists nothing up to its address reads otherwise there. -/
theorem memGet_head_ne {lo k : Nat} {b : Byte} {rest m : Memory} (h : memWfFrom lo ((k, b) :: rest) = true)
    (hm : memWfFrom (k + 1) m = true) : memGet ((k, b) :: rest) k ≠ memGet m k := by
  obtain ⟨-, -, hb, -⟩ := (memWfFrom_cons_iff ..).mp h
  rw [memGet_below hm (Nat.lt_succ_self k), memGet, if_pos rfl]
  exact hb

/-- Canonical memories that agree on every cell agree entry by entry: the smaller of two first addresses would be read
differently, so both lists begin with the same entry. -/
theorem eq_of_memGet_eq {lo : Nat} {m m' : Memory} (hm : memWfFrom lo m = true) (hm' : memWfFrom lo m' = true)
    (h : ∀ a, a ≤ 4095 → memGet m a = memGet m' a) : m = m' := by
  induction m generalizing lo m' with
  | nil =>
    cases m' with
    | nil => rfl
    | cons e' rest' =>
      obtain ⟨-, hk', -, -⟩ := (memWfFrom_cons_iff ..).mp hm'
      exact absurd (h e'.1 (by omega)).symm (memGet_head_ne hm' rfl)
  | cons e rest ih =>
    obtain ⟨k, b⟩ := e
    obtain ⟨-, hk, hb, hrest⟩ := (memWfFrom_cons_iff ..).mp hm
    cases m' with
    | nil => exact absurd (h k (by omega)) (memGet_head_ne hm rfl)
    | cons e' rest' =>
      obtain ⟨k', b'⟩ := e'
      obtain ⟨-, hk', hb', hrest'⟩ := (memWfFrom_cons_iff ..).mp hm'
      rcases Nat.lt_trichotomy k k' with hlt | rfl | hlt
      · have habove : memWfFrom (k + 1) ((k', b') :: rest') = true := (memWfFrom_cons_iff ..).mpr ⟨hlt, hk', hb', hrest'⟩
        exact absurd (h k (by omega)) (memGet_head_ne hm habove)
      · have hbyte : b = b' := by simpa [memGet] using h k (by omega)
        have hreads : ∀ a, a ≤ 4095 → memGet rest a = memGet rest' a := by
          intro a ha
          rcases Nat.lt_or_ge k a with hka | hka
          · simpa [memGet, hka.ne'] using h a ha
          · rw [memGet_below hrest (by omega), memGet_below hrest' (by omega)]
        rw [hbyte, ih hrest hrest' hreads]
      · have habove : memWfFrom (k' + 1) ((k, b) :: rest) = true := (memWfFrom_cons_iff ..).mpr ⟨hlt, hk, hb, hrest⟩
        exact absurd (h k' (by omega)).symm (memGet_head_ne hm' habove)

/-- Settles O22. -/
theorem canonicalMemoriesThatReadAlikeAreEqual : Obligations.CanonicalMemoriesThatReadAlikeAreEqual :=
  fun _ _ => eq_of_memGet_eq

/-! ### A store and the fetch after it -/

/-- `Fx55` whose range is in memory stores V0 to Vx from I on (42_index_memory.md R134). -/
theorem exec_storeRegs_of_le {x : Reg} {s : State} (h : s.i.toNat + x.val ≤ 4095) :
    exec (.storeRegs x) s = .next (writeRange s s.i.toNat (regsUpTo s x)) := by
  show execStoreRegs x s = _
  have hrange : ¬ outOfRange (effectiveAddress s.i 0) (x.val + 1) = true := by
    rw [outOfRange_iff, effectiveAddress]
    omega
  rw [execStoreRegs, if_neg hrange]
  rfl

/-- Stored registers read back from their places in the range. -/
theorem readByte_writeRange_regsUpTo {s : State} (hm : Memory.wf s.mem = true) {base : Nat} {x k : Reg}
    (h : base + x.val ≤ 4095) (hk : k.val ≤ x.val) : readByte (writeRange s base (regsUpTo s x)) (base + k.val) = readReg s k := by
  have hlen : (regsUpTo s x).length = x.val + 1 := regsUpTo_length s x
  rw [readByte_writeRange_inside hm (by omega) (by omega), regsUpTo_getElem s x _ k.isLt]

/-- The high byte of a word counts 256 times (20_memory.md R59). -/
theorem wordOfBytes_eq_ofNat (b0 b1 : Byte) : wordOfBytes b0 b1 = BitVec.ofNat 16 (b0.toNat * 256 + b1.toNat) := by
  rw [← wordOfBytes_toNat, BitVec.ofNat_toNat, BitVec.setWidth_eq]

/-- Settles O8: the store leaves the machine running with PC where V0 and V1 now are, so that the next step is a cycle that
fetches these two bytes. -/
theorem storedCodeIsFetchedNext : Obligations.StoredCodeIsFetchedNext := by
  intro x s t ⟨hfault, hhost⟩ hm hx hi hpc hstore
  have ht : t = writeRange s s.i.toNat (regsUpTo s x) := by
    rw [exec_storeRegs_of_le hi] at hstore
    exact (Host.Outcome.next.inj hstore).symm
  have hrunning : Running t := by simp [Running, ht, hfault, hhost]
  have htpc : t.pc = s.i := by simp [ht, hpc]
  have hstored (k : Reg) (hk : k.val ≤ x.val) : readByte t (s.i.toNat + k.val) = readReg s k := by
    rw [ht, readByte_writeRange_regsUpTo hm hi hk]
  have hword : readWord t t.pc.toNat = wordOfBytes (readReg s 0) (readReg s 1) := by
    rw [readWord, htpc, ← hstored 0 (Nat.zero_le x.val), ← hstored 1 hx]
    rfl
  calc step t = cpuCycle t := step_of_running hrunning
    _ = exec (fetched t) (afterFetch t) := cpuCycle_of_fetch (by rw [htpc]; omega)
    _ = _ := by rw [fetched, hword, wordOfBytes_eq_ofNat]; rfl

end Sys2Proof.Proofs

/-!
Encoding (spec 30_encoding.md): decoding and encoding undo each other (R71, R72, R79), the decoder selects the row whose mask
and match the word meets (R75), and the words that meet none are the no-ops of R77.
-/

namespace Sys2Proof.Proofs

open Sys2Proof.Machine Sys2Proof.Safety

/-! ### A word from its fields (R71, R72) -/

theorem fieldM_toNat_eq_div (op : Word) : (fieldM op).toNat = op.toNat / 4096 := by
  have := op.isLt
  rw [fieldM_toNat]
  omega

theorem encodeNnn_fields {op : Word} {m : BitVec 4} (hm : (fieldM op).toNat = m.toNat) : encodeNnn m (fieldNnn op) = op := by
  apply BitVec.eq_of_toNat_eq
  rw [encodeNnn_toNat, ← hm, fieldM_toNat_eq_div, fieldNnn_toNat]
  omega

theorem encodeXkk_fields {op : Word} {m : BitVec 4} {kk : Byte} (hm : (fieldM op).toNat = m.toNat) (hkk : fieldKk op = kk) :
    encodeXkk m (fieldX op) kk = op := by
  apply BitVec.eq_of_toNat_eq
  rw [encodeXkk_toNat, ← hm, ← hkk, fieldM_toNat_eq_div, fieldX_val, fieldKk_toNat]
  omega

theorem encodeXyn_fields {op : Word} {m n : BitVec 4} (hm : (fieldM op).toNat = m.toNat) (hn : (fieldN op).val = n.toNat) :
    encodeXyn m (fieldX op) (fieldY op) n = op := by
  apply BitVec.eq_of_toNat_eq
  rw [encodeXyn_toNat, ← hm, ← hn, fieldM_toNat_eq_div, fieldX_val, fieldY_val, fieldN_val]
  omega

/-! ### The unrecognised words, family by family (R77) -/

section Families

variable {op : Word}

theorem isUnrecognised_family0 (hm : (fieldM op).toNat = 0x0) : isUnrecognised op = true ↔ op ≠ 0x00E0 ∧ op ≠ 0x00EE := by
  rw [fieldM_toNat_eq_div] at hm
  simp [isUnrecognised, hm, ← BitVec.toNat_inj]

theorem isUnrecognised_family59 (hm : (fieldM op).toNat = 0x5 ∨ (fieldM op).toNat = 0x9) :
    isUnrecognised op = true ↔ fieldN op ≠ 0 := by
  rw [fieldM_toNat_eq_div] at hm
  obtain hm | hm := hm <;> simp [isUnrecognised, hm, Fin.ext_iff, fieldN_val]

theorem isUnrecognised_family8 (hm : (fieldM op).toNat = 0x8) :
    isUnrecognised op = true ↔ 0x8 ≤ (fieldN op).val ∧ (fieldN op).val ≠ 0xE := by
  have hlist : ∀ n < 16, n ∈ [0x8, 0x9, 0xA, 0xB, 0xC, 0xD, 0xF] ↔ 0x8 ≤ n ∧ n ≠ 0xE := by decide
  rw [← hlist _ (fieldN op).isLt, fieldN_val]
  rw [fieldM_toNat_eq_div] at hm
  simp [isUnrecognised, hm]

theorem isUnrecognised_familyE (hm : (fieldM op).toNat = 0xE) :
    isUnrecognised op = true ↔ fieldKk op ≠ 0x9E ∧ fieldKk op ≠ 0xA1 := by
  rw [fieldM_toNat_eq_div] at hm
  simp [isUnrecognised, hm, ← BitVec.toNat_inj, fieldKk_toNat]

theorem isUnrecognised_familyF (hm : (fieldM op).toNat = 0xF) :
    isUnrecognised op = true ↔ (fieldKk op).toNat ∉ [0x07, 0x0A, 0x15, 0x18, 0x1E, 0x29, 0x33, 0x55, 0x65] := by
  rw [fieldM_toNat_eq_div] at hm
  simp [isUnrecognised, hm, fieldKk_toNat]

/-- Every word of the other families is an instruction. -/
theorem isUnrecognised_fullFamily {m : Nat} (hm : (fieldM op).toNat = m)
    (hfull : m ∈ [0x1, 0x2, 0x3, 0x4, 0x6, 0x7, 0xA, 0xB, 0xC, 0xD]) : isUnrecognised op = false := by
  rw [fieldM_toNat_eq_div] at hm
  simp only [List.mem_cons, List.not_mem_nil, or_false] at hfull
  rcases hfull with rfl | rfl | rfl | rfl | rfl | rfl | rfl | rfl | rfl | rfl <;> simp [isUnrecognised, hm]

end Families

/-! ### What decoding says of a word -/

/-- `i` has the word `op`, and it is the no-op exactly when `op` is in the families of R77. -/
structure IsMeaningOf (op : Word) (i : Instr) : Prop where
  word : encode i = op
  noop_iff : i = .unrecognised op ↔ isUnrecognised op = true

theorem isMeaningOf_unrecognised {op : Word} (h : isUnrecognised op = true) : IsMeaningOf op (.unrecognised op) :=
  ⟨rfl, iff_of_true rfl h⟩

theorem isMeaningOf_of_recognised {op : Word} {i : Instr} (hword : encode i = op) (h : ¬ isUnrecognised op = true)
    (hi : i.rowNumber ≠ 35) : IsMeaningOf op i :=
  ⟨hword, iff_of_false (fun e => hi (e ▸ rfl)) h⟩

theorem isMeaningOf_fullFamily {op : Word} {i : Instr} {m : Nat} (hm : (fieldM op).toNat = m) (hword : encode i = op)
    (hi : i.rowNumber ≠ 35) (hfull : m ∈ [0x1, 0x2, 0x3, 0x4, 0x6, 0x7, 0xA, 0xB, 0xC, 0xD]) : IsMeaningOf op i :=
  isMeaningOf_of_recognised hword (Bool.eq_false_iff.mp (isUnrecognised_fullFamily hm hfull)) hi

/-- Family 8, by its sub-operation `n`. -/
theorem decodeFamily8_isMeaningOf {op : Word} (hm : (fieldM op).toNat = 0x8) : IsMeaningOf op (decodeFamily8 op) := by
  have hnoop := isUnrecognised_family8 hm
  unfold decodeFamily8
  split
  case h_10 => exact isMeaningOf_unrecognised (by grind)
  all_goals
    rename_i hn
    exact isMeaningOf_of_recognised (encodeXyn_fields hm hn) (by simp [hnoop, hn]) (by simp [Instr.rowNumber])

/-- Family F, by its sub-operation `kk`. -/
theorem decodeFamilyF_isMeaningOf {op : Word} (hm : (fieldM op).toNat = 0xF) : IsMeaningOf op (decodeFamilyF op) := by
  have hnoop := isUnrecognised_familyF hm
  unfold decodeFamilyF
  split
  case h_10 => exact isMeaningOf_unrecognised (by simp_all)
  all_goals
    rename_i hkk
    exact isMeaningOf_of_recognised (encodeXkk_fields hm (BitVec.eq_of_toNat_eq hkk)) (by simp [hnoop, hkk])
      (by simp [Instr.rowNumber])

/-- The split is the decoder's: families 0, 5, 8, 9, E and F hold unrecognised words, the others hold none. -/
theorem decode_isMeaningOf (op : Word) : IsMeaningOf op (decode op) := by
  unfold decode
  split
  case h_1 hm =>
    have hnoop := isUnrecognised_family0 hm
    split_ifs with hcls hret
    · exact isMeaningOf_of_recognised hcls.symm (by simp [hcls, isUnrecognised]) (by decide)
    · exact isMeaningOf_of_recognised hret.symm (by simp [hret, isUnrecognised]) (by decide)
    · exact isMeaningOf_unrecognised (hnoop.mpr ⟨hcls, hret⟩)
  case h_2 | h_3 | h_11 | h_12 =>
    rename_i hm
    exact isMeaningOf_fullFamily hm (encodeNnn_fields hm) (by simp [Instr.rowNumber]) (by decide)
  case h_4 | h_5 | h_7 | h_8 | h_13 =>
    rename_i hm
    exact isMeaningOf_fullFamily hm (encodeXkk_fields hm rfl) (by simp [Instr.rowNumber]) (by decide)
  case h_14 hm => exact isMeaningOf_fullFamily hm (encodeXyn_fields hm rfl) (by simp [Instr.rowNumber]) (by decide)
  case h_6 hm | h_10 hm =>
    have hnoop := isUnrecognised_family59 (op := op) (by simp [hm])
    split_ifs with hn
    · exact isMeaningOf_of_recognised (encodeXyn_fields hm (congrArg Fin.val hn)) (by simp [hnoop, hn])
        (by simp [Instr.rowNumber])
    · exact isMeaningOf_unrecognised (hnoop.mpr hn)
  case h_9 hm => exact decodeFamily8_isMeaningOf hm
  case h_15 hm =>
    have hnoop := isUnrecognised_familyE hm
    split_ifs with hskp hsknp
    · exact isMeaningOf_of_recognised (encodeXkk_fields hm hskp) (by simp [hnoop, hskp]) (by simp [Instr.rowNumber])
    · exact isMeaningOf_of_recognised (encodeXkk_fields hm hsknp) (by simp [hnoop, hsknp]) (by simp [Instr.rowNumber])
    · exact isMeaningOf_unrecognised (hnoop.mpr ⟨hskp, hsknp⟩)
  case h_16 hm => exact decodeFamilyF_isMeaningOf hm
  case h_17 =>
    have hm := (fieldM op).isLt
    grind

/-- The no-op keeps its word. -/
theorem eq_of_decode_eq_unrecognised {op w : Word} (h : decode op = .unrecognised w) : w = op := by
  have hword := (decode_isMeaningOf op).word
  rwa [h] at hword

/-- Settles O2: both halves are read off the split of `decode_isMeaningOf`. -/
theorem encodeOfDecodeIsIdentity : Obligations.EncodeOfDecodeIsIdentity := by
  intro w
  obtain ⟨hword, hnoop⟩ := decode_isMeaningOf w
  refine ⟨?_, hword⟩
  cases hi : decode w with
  | unrecognised op =>
    obtain rfl := eq_of_decode_eq_unrecognised hi
    exact hnoop.mp hi
  | _ => rfl

/-- Settles O4, by the split of `decode_isMeaningOf`. -/
theorem unrecognisedWordsAreTheListedFamilies : Obligations.UnrecognisedWordsAreTheListedFamilies :=
  fun op => (decode_isMeaningOf op).noop_iff

/-- Settles O1: the decoder's fields are those that the instruction's format puts into the word. -/
theorem decodeOfEncodeIsIdentity : Obligations.DecodeOfEncodeIsIdentity := by
  intro i hi
  cases i with
  | unrecognised op => exact (decode_isMeaningOf op).noop_iff.mpr hi
  | cls | ret => rfl
  | jp | call | ldI | jpV0 => simp [encode, decode, fields_encodeNnn]
  | seImm | sneImm | ldImm | addImm | rnd => simp [encode, decode, fields_encodeXkk]
  | seReg | sneReg | drw => simp [encode, decode, fields_encodeXyn, nibble]
  | ldReg | orReg | andReg | xorReg | addReg | subReg | shr | subnReg | shl =>
    simp [encode, decode, decodeFamily8, fields_encodeXyn]
  | skp | sknp => simp [encode, decode, fields_encodeXkk]
  | ldVxDt | ldVxK | ldDtVx | ldStVx | addI | ldF | ldB | storeRegs | loadRegs =>
    simp [encode, decode, decodeFamilyF, fields_encodeXkk]

/-! ### The rows of the opcode map (R75) -/

theorem matches_iff (r : Row) (op : Word) : r.Matches op = true ↔ op &&& r.mask = r.pattern := decide_eq_true_iff

/-- A field that the mask keeps whole is the pattern's. -/
theorem extractLsb'_eq_of_and {op mask w : Word} {i k : Nat} (h : op &&& mask = w)
    (hmask : mask.extractLsb' i k = BitVec.allOnes k) : op.extractLsb' i k = w.extractLsb' i k := by
  rw [← h, BitVec.extractLsb'_and, hmask, BitVec.and_allOnes]

/-- The decoder selects a row by `m`, and then by the whole word, by `n` or by `kk`, as the family has it. -/
theorem rowNumber_decode_congr {op w : Word} (hm : fieldM op = fieldM w) (hword : fieldM w = 0x0 → op = w)
    (hn : fieldM w ∈ [0x5, 0x8, 0x9] → fieldN op = fieldN w) (hkk : fieldM w ∈ [0xE, 0xF] → fieldKk op = fieldKk w) :
    (decode op).rowNumber = (decode w).rowNumber := by
  simp only [List.mem_cons, List.not_mem_nil, or_false, ← BitVec.toNat_inj (x := fieldM w)] at hword hn hkk
  unfold decode
  rw [hm]
  split
  case h_1 h => rw [hword h]
  case h_6 h | h_10 h =>
    rw [hn (by simp [h])]
    split <;> rfl
  case h_9 h =>
    unfold decodeFamily8
    rw [hn (by simp [h])]
    split <;> rfl
  case h_15 h =>
    rw [hkk (by simp [h])]
    split_ifs <;> rfl
  case h_16 h =>
    unfold decodeFamilyF
    rw [hkk (by simp [h])]
    split <;> rfl
  all_goals rfl

/-- Every row's mask keeps the fields that select within its family. -/
theorem mask_keeps_selectors : ∀ r ∈ table,
    r.mask.extractLsb' 12 4 = BitVec.allOnes 4 ∧ (fieldM r.pattern = 0x0 → r.mask = BitVec.allOnes 16) ∧
    (fieldM r.pattern ∈ [0x5, 0x8, 0x9] → r.mask.extractLsb' 0 4 = BitVec.allOnes 4) ∧
    (fieldM r.pattern ∈ [0xE, 0xF] → r.mask.extractLsb' 0 8 = BitVec.allOnes 8) := by
  decide

theorem rowNumber_decode_pattern : ∀ r ∈ table, (decode r.pattern).rowNumber = r.number := by decide

theorem rowNumber_decode_of_matches {r : Row} {op : Word} (hr : r ∈ table) (h : r.Matches op = true) :
    (decode op).rowNumber = r.number := by
  rw [matches_iff] at h
  obtain ⟨hm, hword, hn, hkk⟩ := mask_keeps_selectors r hr
  rw [← rowNumber_decode_pattern r hr]
  refine rowNumber_decode_congr (extractLsb'_eq_of_and h hm) (fun h0 => ?_)
    (fun hfam => congrArg BitVec.toFin (extractLsb'_eq_of_and h (hn hfam))) (fun hfam => extractLsb'_eq_of_and h (hkk hfam))
  rwa [hword h0, BitVec.and_allOnes] at h

/-- `EncodeMatchesRow` for every instruction. -/
theorem encode_matches_row (i : Instr) : Laws.EncodeMatchesRow.Statement i := by
  open Laws.EncodeMatchesRow in
  exact Instr.casesOn i cls ret jp call seImm sneImm seReg ldImm addImm ldReg orReg andReg xorReg addReg subReg shr subnReg
    shl sneReg ldI jpV0 rnd drw skp sknp ldVxDt ldVxK ldDtVx ldStVx addI ldF ldB storeRegs loadRegs unrecognised

/-- The numbers of the rows tell them apart. -/
theorem find?_row_number : ∀ r ∈ table, table.find? (fun r' => r'.number = r.number) = some r := by decide

theorem matches_of_rowNumber_decode {r : Row} {op : Word} (hr : r ∈ table) (h : (decode op).rowNumber = r.number) :
    r.Matches op = true := by
  rw [← (decode_isMeaningOf op).word]
  exact encode_matches_row (decode op) r (h ▸ find?_row_number r hr)

/-- Every instruction but the no-op has a row. -/
theorem unrecognised_or_exists_row (i : Instr) :
    (∃ op, i = .unrecognised op) ∨ ∃ r ∈ table, i.rowNumber = r.number := by
  cases i
  case unrecognised op => exact .inl ⟨op, rfl⟩
  all_goals
    right
    simp only [Instr.rowNumber]
    decide

/-- Settles O3: a row that is met keeps the fields the decoder selects by, and the decoded instruction's word, which is the
word itself (O2), meets its own row. -/
theorem decodeSelectsTheMatchingRow : Obligations.DecodeSelectsTheMatchingRow := by
  refine fun op => ⟨fun r hr => ⟨rowNumber_decode_of_matches hr, matches_of_rowNumber_decode hr⟩, fun hnone => ?_⟩
  obtain ⟨w, hw⟩ | ⟨r, hr, hrow⟩ := unrecognised_or_exists_row (decode op)
  · rw [hw, eq_of_decode_eq_unrecognised hw]
  · exact absurd (matches_of_rowNumber_decode hr hrow) (by simp [hnone r hr])

/-- Settles O5. -/
theorem sampleWordsDecode : Obligations.SampleWordsDecode := by
  unfold Obligations.SampleWordsDecode
  decide

/-! ### The cycle (R74, R76) -/

/-- Settles O6. -/
theorem stepRunsTheDecodedInstruction : Obligations.StepRunsTheDecodedInstruction := by
  intro s hrun
  rw [step_of_running hrun]
  refine ⟨fun hpc => ?_, cpuCycle_of_no_fetch⟩
  rw [cpuCycle_of_fetch hpc, fetched, readWord, wordOfBytes_eq_ofNat]
  rfl

/-- Settles O7: the word that meets no row decodes to the no-op. -/
theorem unrecognisedWordIsANoOp : Obligations.UnrecognisedWordIsANoOp := by
  refine fun s op => ⟨rfl, fun hnone hpc hword => ?_⟩
  obtain ⟨-, hnoop⟩ := decodeSelectsTheMatchingRow op
  rw [cpuCycle_of_fetch hpc, fetched, hword, hnoop hnone]
  rfl

end Sys2Proof.Proofs

/-!
Control transfer (spec 40_flow.md): the jumps, CALL and RET with the hardware stack (R101 to R103, R108), and the four skips
on registers (R100, R104 to R107). Before them, for every family: the decoding of a word given by its fields, the frame of
an instruction that may write more parts than it did, and the taking of a fault.
-/

namespace Sys2Proof.Proofs

open Sys2Proof.Machine Sys2Proof.Safety

/-! ### The instruction of a word given by its fields (30_encoding.md R71, R72) -/

theorem wordNnn_eq_encodeNnn (m : BitVec 4) (nnn : BitVec 12) : wordNnn m.toNat nnn = encodeNnn m nnn := by
  rw [wordNnn, ← encodeNnn_toNat, BitVec.ofNat_toNat, BitVec.setWidth_eq]

theorem wordXkk_eq_encodeXkk (m : BitVec 4) (x : Reg) (kk : Byte) : wordXkk m.toNat x kk = encodeXkk m x kk := by
  rw [wordXkk, ← encodeXkk_toNat, BitVec.ofNat_toNat, BitVec.setWidth_eq]

theorem wordXyn_eq_encodeXyn (m : BitVec 4) (x y : Reg) (n : BitVec 4) :
    wordXyn m.toNat x y n.toNat = encodeXyn m x y n := by
  rw [wordXyn, ← encodeXyn_toNat, BitVec.ofNat_toNat, BitVec.setWidth_eq]

theorem decode_wordNnn {i : Instr} (m : BitVec 4) {nnn : BitVec 12} (hi : i.WellFormed = true)
    (hword : encode i = encodeNnn m nnn) : decode (wordNnn m.toNat nnn) = i := by
  rw [wordNnn_eq_encodeNnn, ← hword, decodeOfEncodeIsIdentity i hi]

theorem decode_wordXkk {i : Instr} (m : BitVec 4) {x : Reg} {kk : Byte} (hi : i.WellFormed = true)
    (hword : encode i = encodeXkk m x kk) : decode (wordXkk m.toNat x kk) = i := by
  rw [wordXkk_eq_encodeXkk, ← hword, decodeOfEncodeIsIdentity i hi]

theorem decode_wordXyn {i : Instr} (m n : BitVec 4) {x y : Reg} (hi : i.WellFormed = true)
    (hword : encode i = encodeXyn m x y n) : decode (wordXyn m.toNat x y n.toNat) = i := by
  rw [wordXyn_eq_encodeXyn, ← hword, decodeOfEncodeIsIdentity i hi]

/-- Families 5 and 9 are matched on `n = 0` alone (R77; the spec's decision D17). -/
theorem decode_wordXyn_family59 {m : BitVec 4} (hm : m.toNat = 0x5 ∨ m.toNat = 0x9) (x y : Reg) {n : Nat} (hpos : 0 < n)
    (hn : n < 16) : decode (wordXyn m.toNat x y n) = .unrecognised (wordXyn m.toNat x y n) := by
  obtain ⟨b, rfl⟩ : ∃ b : BitVec 4, b.toNat = n := ⟨BitVec.ofNatLT n hn, rfl⟩
  obtain ⟨hfieldM, -, -, hfieldN⟩ := fields_encodeXyn m x y b
  rw [wordXyn_eq_encodeXyn]
  refine (decode_isMeaningOf _).noop_iff.mpr ((isUnrecognised_family59 (by rwa [hfieldM])).mpr ?_)
  rw [hfieldN]
  exact fun h0 => hpos.ne' (congrArg Fin.val h0)

/-! ### Frames and faults -/

theorem Keeps.changesOnly {ps : List Part} {s t : State} (h : Keeps ps s t) : ChangesOnly ps s t := fun p hp => (h p hp).same

/-- Of the parts that its row of the access matrix allows (10_state.md R39) an instruction need not have written all. -/
theorem changesOnly_of_exec {i : Instr} {ps : List Part} {s t : State} (ht : exec i s = .next t)
    (hsame : ∀ p ∈ mayWrite i, p ∉ ps → Same s t p) : ChangesOnly ps s t := by
  intro p hp
  by_cases hrow : p ∈ mayWrite i
  · exact hsame p hrow hp
  · exact accessMatrixIsKept i s t ht p hrow

/-- Raising a fault puts PC back to the instruction's own address and sets the latch (60_exceptions.md R167). -/
theorem takesFault_of_raiseFault {i : Instr} {f : FaultRecord} {s : State} (h : exec i s = raiseFault f s) :
    TakesFault i f s :=
  ⟨_, h, rfl, BitVec.sub_add_cancel s.pc 2, (keeps_takeFault (by simp)).changesOnly⟩

/-! ### RET (R101) -/

theorem exec_ret_of_empty {s : State} (h : s.sp = 0) : exec .ret s = raiseFault .stackUnderflow s := if_pos h

/-- RET with SP at an entry other than entry 0 pops that entry. -/
theorem exec_ret_of_entry {s : State} {j : Fin 16} (hj : 1 ≤ j.val) (hsp : s.sp.toNat = j.val) :
    exec .ret s = .next { s with pc := s.stack.get j, sp := s.sp - 1 } := by
  have hne : s.sp ≠ 0 := by bv_omega
  have hentry : readStack s s.sp.toNat = some (s.stack.get j) := by
    rw [hsp]
    exact Vector.getElem?_eq_getElem j.isLt
  show execRet s = _
  rw [execRet, if_neg hne, hentry]

theorem exec_ret_of_absent {s : State} (h : 15 < s.sp.toNat) : exec .ret s = .fault (.stackIndexAbsent s.sp) := by
  have hne : s.sp ≠ 0 := by bv_omega
  have hentry : readStack s s.sp.toNat = none := Vector.getElem?_eq_none h
  show execRet s = _
  rw [execRet, if_neg hne, hentry]

/-- Settles O23: one clause for each range of SP. -/
theorem returnPopsOrUnderflows : Obligations.ReturnPopsOrUnderflows := by
  refine fun s => ⟨rfl, fun h => takesFault_of_raiseFault (exec_ret_of_empty h), fun j hj hsp => ?_, exec_ret_of_absent⟩
  have hret := exec_ret_of_entry hj hsp
  have hlower : (s.sp - 1).toNat + 1 = s.sp.toNat := by bv_omega
  exact ⟨_, hret, rfl, hlower, fun _ => rfl, changesOnly_of_exec hret (by simp [mayWrite, Same])⟩

/-! ### CALL (R103) -/

theorem exec_call_of_full {nnn : BitVec 12} {s : State} (h : s.sp = 15) :
    exec (.call nnn) s = raiseFault .stackOverflow s := if_pos h

theorem exec_call_of_lt {nnn : BitVec 12} {s : State} (h : s.sp.toNat < 15) :
    exec (.call nnn) s = .next { push s s.pc with pc := zext12 nnn } := by
  have hne : s.sp ≠ 15 := by bv_omega
  exact (if_neg hne).trans (if_pos h)

theorem exec_call_of_absent {nnn : BitVec 12} {s : State} (h : 15 < s.sp.toNat) :
    exec (.call nnn) s = .fault (.stackIndexAbsent s.sp) := by
  have hne : s.sp ≠ 15 := by bv_omega
  exact (if_neg hne).trans (if_neg h.le.not_gt)

/-- A push below a full stack raises SP by 1, without wrap-around. -/
theorem push_sp_toNat {s : State} (h : s.sp.toNat < 15) (w : Word) : (push s w).sp.toNat = s.sp.toNat + 1 := by
  rw [push_sp]
  bv_omega

/-- A push below a full stack writes the entry above the one that SP indexes. -/
theorem push_stack_get {s : State} (h : s.sp.toNat < 15) (w : Word) (k : Fin 16) :
    (push s w).stack.get k = if k.val = s.sp.toNat + 1 then w else s.stack.get k := by
  have hslot : (s.sp + 1).toNat = s.sp.toNat + 1 := push_sp_toNat h w
  simp only [push, Vector.get_eq_getElem, Vector.getElem_setIfInBounds, hslot, eq_comm]

/-- Settles O25: one clause for each range of SP. -/
theorem callPushesOrOverflows : Obligations.CallPushesOrOverflows := by
  refine fun nnn s => ⟨decode_wordNnn 0x2 rfl rfl, fun h => takesFault_of_raiseFault (exec_call_of_full h), fun h => ?_,
    exec_call_of_absent⟩
  have hcall := exec_call_of_lt (nnn := nnn) h
  exact ⟨_, hcall, zext12_toNat nnn, push_sp_toNat h s.pc, push_stack_get h s.pc,
    changesOnly_of_exec hcall (by simp [mayWrite, Same])⟩

/-- Settles O26: the entry that RET pops is the one that CALL pushed. -/
theorem returnAfterCallComesBack : Obligations.ReturnAfterCallComesBack := by
  intro nnn s t u hlt hcall husp hustack
  obtain rfl : { push s s.pc with pc := zext12 nnn } = t := Host.Outcome.next.inj ((exec_call_of_lt hlt).symm.trans hcall)
  have hsp : u.sp = s.sp + 1 := husp
  have hindex : u.sp.toNat = s.sp.toNat + 1 := by rw [husp]; exact push_sp_toNat hlt s.pc
  let j : Fin 16 := ⟨s.sp.toNat + 1, by omega⟩
  have hentry : u.stack.get j = s.pc := by
    rw [hustack]
    exact (push_stack_get hlt s.pc j).trans (if_pos rfl)
  refine ⟨_, exec_ret_of_entry (j := j) (Nat.le_add_left 1 _) hindex, hentry, ?_⟩
  show u.sp - 1 = s.sp
  rw [hsp, BitVec.add_sub_cancel]

/-! ### The jumps (R102, R108) -/

/-- Settles O24. -/
theorem jumpGoesToItsTarget : Obligations.JumpGoesToItsTarget :=
  fun nnn s => ⟨decode_wordNnn 0x1 rfl rfl, _, rfl, zext12_toNat nnn, accessMatrixIsKept (.jp nnn) s _ rfl⟩

theorem zext8_toNat (b : Byte) : (zext8 b).toNat = b.toNat := by
  have := b.isLt
  simp [zext8]
  omega

/-- The sum of the jump with offset does not wrap around. -/
theorem zext8_add_zext12_toNat (b : Byte) (nnn : BitVec 12) : (zext8 b + zext12 nnn).toNat = b.toNat + nnn.toNat := by
  have := b.isLt
  have := nnn.isLt
  rw [BitVec.toNat_add, zext8_toNat, zext12_toNat]
  omega

/-- Settles O29. -/
theorem offsetJumpAddsV0 : Obligations.OffsetJumpAddsV0 :=
  fun nnn s => ⟨decode_wordNnn 0xB rfl rfl, _, rfl, zext8_add_zext12_toNat (readReg s 0) nnn,
    accessMatrixIsKept (.jpV0 nnn) s _ rfl⟩

/-! ### The skips (R100, R104 to R107) -/

theorem skipIf_pc_toNat (c : Bool) (s : State) :
    (skipIf c s).pc.toNat = (s.pc.toNat + if c then 2 else 0) % 65536 := by
  cases c with
  | true => exact BitVec.toNat_add s.pc 2
  | false => exact (Nat.mod_eq_of_lt s.pc.isLt).symm

/-- What an instruction that skips under the condition `c` does. -/
theorem exists_next_of_skipIf {i : Instr} {c : Bool} {s : State} (h : exec i s = .next (skipIf c s)) :
    ∃ t, exec i s = .next t ∧ ChangesOnly [.pc] s t ∧ t.pc.toNat = (s.pc.toNat + if c then 2 else 0) % 65536 :=
  ⟨_, h, (keeps_skipIf (by simp)).changesOnly, skipIf_pc_toNat c s⟩

/-- Settles O27. -/
theorem immediateSkips : Obligations.ImmediateSkips := by
  refine fun x kk s => ⟨decode_wordXkk 0x3 rfl rfl, decode_wordXkk 0x4 rfl rfl, ?_, ?_⟩
  · have hse := exists_next_of_skipIf (i := .seImm x kk) (s := s) rfl
    simpa [BitVec.toNat_inj] using hse
  · have hsne := exists_next_of_skipIf (i := .sneImm x kk) (s := s) rfl
    simpa [BitVec.toNat_inj] using hsne

/-- Settles O28. -/
theorem registerSkips : Obligations.RegisterSkips := by
  refine fun x y s => ⟨decode_wordXyn 0x5 0 rfl rfl, decode_wordXyn 0x9 0 rfl rfl, fun n hpos hn => ⟨?_, ?_⟩, ?_, ?_⟩
  · exact decode_wordXyn_family59 (m := 0x5) (.inl rfl) x y hpos hn
  · exact decode_wordXyn_family59 (m := 0x9) (.inr rfl) x y hpos hn
  · have hse := exists_next_of_skipIf (i := .seReg x y) (s := s) rfl
    simpa [BitVec.toNat_inj] using hse
  · have hsne := exists_next_of_skipIf (i := .sneReg x y) (s := s) rfl
    simpa [BitVec.toNat_inj] using hsne

end Sys2Proof.Proofs

/-!
Register load, arithmetic, logic, shift and random (spec 41_alu.md). Each instruction has one of three shapes: it writes Vx
alone, it writes Vx and then the flag (ADD), or it writes the flag and then Vx from the registers as they then stand (SUB,
SUBN, SHR, SHL), so that a flag written to VF is itself an operand where x or y is 0xF (the spec's decision D19).
-/

namespace Sys2Proof.Proofs

open Sys2Proof.Machine Sys2Proof.Safety

/-! ### What a flag and a byte operation are as naturals (R110) -/

theorem flagByte_toNat (c : Bool) : (flagByte c).toNat = if c then 1 else 0 := by cases c <;> rfl

theorem carryFlag_toNat (a b : Byte) : (carryFlag a b).toNat = if a.toNat + b.toNat > 255 then 1 else 0 := by
  simp [carryFlag, flagByte_toNat]

theorem greaterFlag_toNat (a b : Byte) : (greaterFlag a b).toNat = if a.toNat > b.toNat then 1 else 0 := by
  simp [greaterFlag, flagByte_toNat]

theorem shiftRightFlag_toNat (a : Byte) : (shiftRightFlag a).toNat = a.toNat % 2 := by
  rw [shiftRightFlag, BitVec.toNat_and]
  exact Nat.and_one_is_mod a.toNat

theorem shiftLeftFlag_toNat (a : Byte) : (shiftLeftFlag a).toNat = a.toNat / 128 := by
  have hlt := a.isLt
  have hbit : (shiftLeftFlag a).toNat = a.toNat / 128 % 2 := by
    rw [← Nat.and_one_is_mod, shiftLeftFlag, BitVec.toNat_and, BitVec.toNat_ushiftRight, Nat.shiftRight_eq_div_pow]
    rfl
  omega

theorem byte_sub_toNat (a b : Byte) : (a - b).toNat = (a.toNat + 256 - b.toNat) % 256 := by
  bv_omega

theorem byte_halve_toNat (a : Byte) : (a >>> 1).toNat = a.toNat / 2 := by
  rw [BitVec.toNat_ushiftRight, Nat.shiftRight_eq_div_pow, pow_one]

theorem byte_double_toNat (a : Byte) : (a <<< 1).toNat = a.toNat * 2 % 256 := by
  rw [BitVec.toNat_shiftLeft, Nat.shiftLeft_eq, pow_one]

/-! ### The shapes of the family -/

theorem sameRegsBut_writeReg (s : State) (x : Reg) (b : Byte) : SameRegsBut [x] s (writeReg s x b) :=
  fun _ hr => readReg_writeReg_other s b (List.ne_of_not_mem_cons hr)

/-- What an instruction does that writes `b` to Vx alone. -/
theorem exists_next_of_writeReg {i : Instr} {x : Reg} {b : Byte} {s : State} (h : exec i s = .next (writeReg s x b)) :
    ∃ t, exec i s = .next t ∧ readReg t x = b ∧ SameRegsBut [x] s t ∧ ChangesOnly [.regs] s t :=
  ⟨_, h, readReg_writeReg_same s x b, sameRegsBut_writeReg s x b, (keeps_writeReg (by simp)).changesOnly⟩

/-- Two registers are written one after the other. -/
theorem sameRegsBut_writeReg_writeReg {rs : List Reg} {x y : Reg} (hx : x ∈ rs) (hy : y ∈ rs) (s : State) (a b : Byte) :
    SameRegsBut rs s (writeReg (writeReg s x a) y b) := by
  intro r hr
  rw [readReg_writeReg_other _ _ (ne_of_mem_of_not_mem hy hr).symm,
    readReg_writeReg_other _ _ (ne_of_mem_of_not_mem hx hr).symm]

theorem changesOnly_writeReg_writeReg (s : State) (x y : Reg) (a b : Byte) :
    ChangesOnly [.regs] s (writeReg (writeReg s x a) y b) :=
  (Keeps.trans (keeps_writeReg (by simp)) (keeps_writeReg (by simp))).changesOnly

/-- What an instruction does that writes the flag `f` and then `b` to Vx: the flag is left in VF unless Vx is VF. -/
theorem exists_next_of_flag_first {i : Instr} {x : Reg} {f b : Byte} {s : State}
    (h : exec i s = .next (writeReg (writeReg s vf f) x b)) :
    ∃ t, exec i s = .next t ∧ SameRegsBut [x, 15] s t ∧ ChangesOnly [.regs] s t ∧
      readReg t x = b ∧ (x ≠ 15 → readReg t 15 = f) := by
  refine ⟨_, h, sameRegsBut_writeReg_writeReg (by simp [vf]) (by simp) s f b, changesOnly_writeReg_writeReg s vf x f b,
    readReg_writeReg_same _ x b, fun hx => ?_⟩
  rw [readReg_writeReg_other _ _ hx.symm]
  exact readReg_writeReg_same s vf f

/-- A register that is read after the flag has been written. -/
theorem readReg_flagged (s : State) (f : Byte) (r : Reg) :
    readReg (writeReg s vf f) r = if r = 15 then f else readReg s r := readReg_writeReg s vf r f

/-- The difference of two registers that are read after the flag has been written. -/
theorem flagged_sub_toNat (s : State) (f : Byte) (p q : Reg) :
    (readReg (writeReg s vf f) p - readReg (writeReg s vf f) q).toNat =
      ((if p = 15 then f.toNat else (readReg s p).toNat) + 256 - (if q = 15 then f.toNat else (readReg s q).toNat)) % 256 := by
  rw [byte_sub_toNat, readReg_flagged, readReg_flagged, apply_ite BitVec.toNat, apply_ite BitVec.toNat]

/-! ### Subtraction (R118, R120) -/

/-- What an instruction does that writes `Vp > Vq` to VF and then `Vp - Vq` to Vx: an operand that is VF reads the flag. -/
theorem exists_next_of_flagged_sub {i : Instr} {x p q : Reg} {s s1 : State}
    (hs1 : s1 = writeReg s vf (greaterFlag (readReg s p) (readReg s q)))
    (h : exec i s = .next (writeReg s1 x (readReg s1 p - readReg s1 q))) :
    ∃ t, exec i s = .next t ∧ SameRegsBut [x, 15] s t ∧ ChangesOnly [.regs] s t ∧
      ∀ a b f : Nat, a = (readReg s p).toNat → b = (readReg s q).toNat → f = (if a > b then 1 else 0) →
        (readReg t x).toNat = ((if p = 15 then f else a) + 256 - (if q = 15 then f else b)) % 256 ∧
        (x ≠ 15 → (readReg t 15).toNat = f) := by
  subst hs1
  obtain ⟨t, ht, hregs, hframe, hdest, hflag⟩ := exists_next_of_flag_first h
  refine ⟨t, ht, hregs, hframe, ?_⟩
  rintro a b f rfl rfl rfl
  constructor
  · rw [hdest, flagged_sub_toNat, greaterFlag_toNat]
  · intro hx
    rw [hflag hx, greaterFlag_toNat]

/-- Settles O34: the four cases differ in which operands are VF. -/
theorem subtractSetsStrictGreater : Obligations.SubtractSetsStrictGreater := by
  intro x y s
  obtain ⟨t, ht, hregs, hframe, hvalues⟩ := exists_next_of_flagged_sub (i := .subReg x y) (p := x) (q := y) rfl rfl
  refine ⟨decode_wordXyn 0x8 0x5 rfl rfl, t, ht, hregs, hframe, fun a b f ha hb hf => ?_⟩
  obtain ⟨hdiff, hflag⟩ := hvalues a b f ha hb hf
  refine ⟨fun hx hy => ⟨?_, hflag hx⟩, fun hx hy => ?_, fun hx hy => ⟨?_, hflag hx⟩, fun hx hy => ?_⟩
    <;> simpa [hx, hy] using hdiff

/-- Settles O35: as O34 with the operands exchanged. -/
theorem reverseSubtractSetsStrictGreater : Obligations.ReverseSubtractSetsStrictGreater := by
  intro x y s
  obtain ⟨t, ht, hregs, hframe, hvalues⟩ := exists_next_of_flagged_sub (i := .subnReg x y) (p := y) (q := x) rfl rfl
  refine ⟨decode_wordXyn 0x8 0x7 rfl rfl, t, ht, hregs, hframe, fun a b f ha hb hf => ?_⟩
  obtain ⟨hdiff, hflag⟩ := hvalues b a f hb ha hf
  refine ⟨fun hx hy => ⟨?_, hflag hx⟩, fun hx hy => ?_, fun hx hy => ⟨?_, hflag hx⟩, fun hx hy => ?_⟩
    <;> simpa [hx, hy] using hdiff

/-! ### Loads, immediate sum and logic (R111 to R116) -/

/-- Settles O30. -/
theorem registerLoads : Obligations.RegisterLoads :=
  fun _ _ _ _ => ⟨decode_wordXkk 0x6 rfl rfl, decode_wordXyn 0x8 0x0 rfl rfl, exists_next_of_writeReg rfl,
    exists_next_of_writeReg rfl⟩

/-- Settles O31. -/
theorem addImmediateWraps : Obligations.AddImmediateWraps := by
  intro x kk s
  obtain ⟨t, ht, hsum, hregs, hframe⟩ := exists_next_of_writeReg (i := .addImm x kk) (s := s) rfl
  refine ⟨decode_wordXkk 0x7 rfl rfl, t, ht, ?_, hregs, hframe⟩
  rw [hsum, BitVec.toNat_add]

/-- Settles O32. -/
theorem logicIsBitwise : Obligations.LogicIsBitwise := by
  refine fun x y s => ⟨decode_wordXyn 0x8 0x1 rfl rfl, decode_wordXyn 0x8 0x2 rfl rfl, decode_wordXyn 0x8 0x3 rfl rfl,
    ?_, ?_, ?_⟩
  · obtain ⟨t, ht, hor, hregs, hframe⟩ := exists_next_of_writeReg (i := .orReg x y) (s := s) rfl
    exact ⟨t, ht, hregs, hframe, fun k _ => by rw [hor, BitVec.getLsbD_or]⟩
  · obtain ⟨t, ht, hand, hregs, hframe⟩ := exists_next_of_writeReg (i := .andReg x y) (s := s) rfl
    exact ⟨t, ht, hregs, hframe, fun k _ => by rw [hand, BitVec.getLsbD_and]⟩
  · obtain ⟨t, ht, hxor, hregs, hframe⟩ := exists_next_of_writeReg (i := .xorReg x y) (s := s) rfl
    exact ⟨t, ht, hregs, hframe, fun k _ => by rw [hxor, BitVec.getLsbD_xor]⟩

/-! ### ADD (R117) -/

/-- Settles O33: the carry is written last, so it stays in VF also where Vx is VF. -/
theorem addRegistersSetsCarry : Obligations.AddRegistersSetsCarry := by
  refine fun x y s => ⟨decode_wordXyn 0x8 0x4 rfl rfl, _, rfl, fun hx => ?_, ?_,
    sameRegsBut_writeReg_writeReg (by simp) (by simp [vf]) s _ _, changesOnly_writeReg_writeReg s x vf _ _⟩
  · rw [readReg_writeReg_other (x := vf) _ _ hx, readReg_writeReg_same, BitVec.toNat_add]
  · rw [← carryFlag_toNat]
    exact congrArg BitVec.toNat (readReg_writeReg_same _ vf _)

/-! ### Shifts (R119, R121) -/

/-- Settles O36: with x = 0xF it is the flag that is halved. -/
theorem shiftRightHalves : Obligations.ShiftRightHalves := by
  intro x y s
  obtain ⟨t, ht, hregs, hframe, hdest, hflag⟩ := exists_next_of_flag_first (i := .shr x y) (s := s) rfl
  rw [readReg_flagged] at hdest
  refine ⟨decode_wordXyn 0x8 0x6 rfl rfl, t, ht, hregs, hframe, fun hx => ⟨?_, ?_⟩, fun hx => ?_⟩
  · rw [hdest, if_neg hx, byte_halve_toNat]
  · rw [hflag hx, shiftRightFlag_toNat]
  · rw [← hx, hdest, if_pos hx, byte_halve_toNat, shiftRightFlag_toNat]
    omega

/-- Settles O37: with x = 0xF it is the flag that is doubled. -/
theorem shiftLeftDoubles : Obligations.ShiftLeftDoubles := by
  intro x y s
  obtain ⟨t, ht, hregs, hframe, hdest, hflag⟩ := exists_next_of_flag_first (i := .shl x y) (s := s) rfl
  rw [readReg_flagged] at hdest
  refine ⟨decode_wordXyn 0x8 0xE rfl rfl, t, ht, hregs, hframe, fun hx => ⟨?_, ?_⟩, fun hx => ?_⟩
  · rw [hdest, if_neg hx, byte_double_toNat]
  · rw [hflag hx, shiftLeftFlag_toNat]
  · have hlt := (readReg s x).isLt
    rw [← hx, hdest, if_pos hx, byte_double_toNat, shiftLeftFlag_toNat]
    omega

/-! ### RND (R122) -/

/-- Settles O38: the two clauses are the two ways to take a draw. -/
theorem randomByteIsAMaskedDraw : Obligations.RandomByteIsAMaskedDraw := by
  intro x kk s
  have hdest := readReg_writeReg_same (takeDraw s).2 x ((takeDraw s).1 &&& kk)
  refine ⟨decode_wordXkk 0xC rfl rfl, _, rfl,
    fun r hr => onlyNamedRegistersAreWritten (.rnd x kk) s _ r rfl (List.ne_of_not_mem_cons hr),
    accessMatrixIsKept (.rnd x kk) s _ rfl, takeDraw_host s, ?_, fun d rest hdraws => ⟨fun k => ?_, ?_⟩,
    fun hnone => ⟨?_, ?_⟩⟩
  · rw [hdest, BitVec.and_assoc, BitVec.and_not_self]
    exact BitVec.and_zero
  · rw [hdest, takeDraw_cons hdraws, BitVec.getLsbD_and]
  · simp [takeDraw_cons hdraws]
  · rw [hdest, takeDraw_nil hnone]
  · simp [takeDraw_nil hnone, hnone]

end Sys2Proof.Proofs

/-!
Index register and memory transfer (spec 42_index_memory.md). `Fx33`, `Fx55` and `Fx65` check the whole range from I on first
(R136): out of range they take MemFault with nothing written or loaded, and otherwise each of them is one operation on that
range.
-/

namespace Sys2Proof.Proofs

open Sys2Proof.Machine Sys2Proof.Safety

/-! ### The range check of an access from I on (R136; 60_exceptions.md R162) -/

/-- Elements 0 to `n` are in memory, so the instruction does what it does behind its check. -/
theorem rangeCheck_of_le {s t : State} {n : Nat} {f : FaultRecord} (h : s.i.toNat + n ≤ 4095) :
    (if outOfRange (effectiveAddress s.i 0) (n + 1) then raiseFault f s else .next t) = .next t := by
  refine if_neg ?_
  rw [outOfRange_iff, effectiveAddress]
  omega

/-- Element `n` is above memory, so the instruction faults. -/
theorem rangeCheck_of_lt {s t : State} {n : Nat} {f : FaultRecord} (h : 4095 < s.i.toNat + n) :
    (if outOfRange (effectiveAddress s.i 0) (n + 1) then raiseFault f s else .next t) = raiseFault f s := by
  refine if_pos ?_
  rw [outOfRange_iff, effectiveAddress]
  omega

/-! ### BCD (R133) -/

theorem exec_ldB_of_le {x : Reg} {s : State} (h : s.i.toNat + 2 ≤ 4095) :
    exec (.ldB x) s = .next (writeRange s s.i.toNat (bcdDigits (readReg s x))) := rangeCheck_of_le h

theorem exec_ldB_of_lt {x : Reg} {s : State} (h : 4095 < s.i.toNat + 2) :
    exec (.ldB x) s = raiseFault (.memFault .write s.i 3) s := rangeCheck_of_lt h

/-- The digits fit a byte. -/
theorem bcdDigits_toNat (b : Byte) :
    (bcdDigits b).map BitVec.toNat = [b.toNat / 100, b.toNat / 10 % 10, b.toNat % 10] := by
  have hlt := b.isLt
  simp only [bcdDigits, List.map_cons, List.map_nil, BitVec.toNat_ofNat, List.cons.injEq, and_true]
  omega

/-- The stored digits read back from their places in the range. -/
theorem readByte_writeRange_bcdDigits {s : State} (hm : Memory.wf s.mem = true) {base : Nat} (h : base + 2 ≤ 4095) (b : Byte)
    (k : Fin 3) : (readByte (writeRange s base (bcdDigits b)) (base + k.val)).toNat =
      [b.toNat / 100, b.toNat / 10 % 10, b.toNat % 10][k] := by
  have hread : readByte (writeRange s base (bcdDigits b)) (base + k.val) = (bcdDigits b)[k.val] :=
    readByte_writeRange_inside hm (Nat.succ_le_succ h) k.isLt
  simp only [hread, ← bcdDigits_toNat b, Fin.getElem_fin, List.getElem_map]

/-- Settles O40: the clauses are those of the range check, and each digit reads back from its place. -/
theorem bcdStoresThreeDigits : Obligations.BcdStoresThreeDigits := by
  refine fun x s => ⟨decode_wordXkk 0xF rfl rfl, fun hm h => ?_, fun h => takesFault_of_raiseFault (exec_ldB_of_lt h)⟩
  have hdigit := readByte_writeRange_bcdDigits hm h (readReg s x)
  exact ⟨_, exec_ldB_of_le h, (keeps_writeRange (by simp)).changesOnly,
    fun _ ha => readByte_writeRange_outside s (bcdDigits (readReg s x)) ha, hdigit 0, hdigit 1, hdigit 2⟩

/-! ### Storing and loading registers (R134, R135) -/

theorem exec_storeRegs_of_lt {x : Reg} {s : State} (h : 4095 < s.i.toNat + x.val) :
    exec (.storeRegs x) s = raiseFault (.memFault .write s.i (x.val + 1)) s := rangeCheck_of_lt h

theorem exec_loadRegs_of_le {x : Reg} {s : State} (h : s.i.toNat + x.val ≤ 4095) :
    exec (.loadRegs x) s = .next (loadRegsFrom s s.i x) := rangeCheck_of_le h

theorem exec_loadRegs_of_lt {x : Reg} {s : State} (h : 4095 < s.i.toNat + x.val) :
    exec (.loadRegs x) s = raiseFault (.memFault .read s.i (x.val + 1)) s := rangeCheck_of_lt h

/-- Settles O41: the clauses are those of the range check; the range is as long as the list of registers. -/
theorem storeRegistersWritesTheRange : Obligations.StoreRegistersWritesTheRange := by
  refine fun x s => ⟨decode_wordXkk 0xF rfl rfl, fun hm h => ?_,
    fun h => takesFault_of_raiseFault (exec_storeRegs_of_lt h)⟩
  refine ⟨_, exec_storeRegs_of_le h, (keeps_writeRange (by simp)).changesOnly, fun a ha => ?_,
    fun _ hk => readByte_writeRange_regsUpTo hm h hk⟩
  rw [← regsUpTo_length s x] at ha
  exact readByte_writeRange_outside s _ ha

/-- Settles O42: the clauses are those of the range check. -/
theorem loadRegistersReadsTheRange : Obligations.LoadRegistersReadsTheRange := by
  refine fun x s => ⟨decode_wordXkk 0xF rfl rfl, fun h => ?_, fun h => takesFault_of_raiseFault (exec_loadRegs_of_lt h)⟩
  exact ⟨_, exec_loadRegs_of_le h, (keeps_loadRegsFrom (by simp)).changesOnly,
    fun k hk => (readReg_loadRegsFrom s s.i x k).trans (if_pos hk),
    fun k hk => (readReg_loadRegsFrom s s.i x k).trans (if_neg hk.not_ge)⟩

/-- Settles O43: the loaded byte is the one that the store left at its place. -/
theorem loadAfterStoreRestoresRegisters : Obligations.LoadAfterStoreRestoresRegisters := by
  intro x s t u hm h hstore humem hui
  obtain ⟨-, hstored, -⟩ := storeRegistersWritesTheRange x s
  obtain ⟨t', hstore', -, -, hbytes⟩ := hstored hm h
  obtain rfl : t' = t := Host.Outcome.next.inj (hstore'.symm.trans hstore)
  obtain ⟨-, hloaded, -⟩ := loadRegistersReadsTheRange x u
  obtain ⟨w, hload, -, hregs, -⟩ := hloaded (hui ▸ h)
  refine ⟨w, hload, fun k hk => ?_⟩
  rw [hregs k hk, readByte_congr humem, hui, hbytes k hk]

/-! ### The index register (R130 to R132) -/

theorem add_zext8_toNat (i : Word) (b : Byte) : (i + zext8 b).toNat = (i.toNat + b.toNat) % 65536 := by
  rw [BitVec.toNat_add, zext8_toNat]

/-- Five times a byte does not wrap around. -/
theorem zext8_mul_five_toNat (b : Byte) : (zext8 b * 5).toNat = b.toNat * 5 := by
  have hlt := b.isLt
  have hproduct : (zext8 b * 5).toNat = b.toNat * 5 % 65536 := by
    rw [BitVec.toNat_mul, zext8_toNat]
    rfl
  omega

/-- Settles O39: only the sum of `Fx1E` can wrap around. -/
theorem indexRegisterInstructions : Obligations.IndexRegisterInstructions :=
  fun x nnn s => ⟨decode_wordNnn 0xA rfl rfl, decode_wordXkk 0xF rfl rfl, decode_wordXkk 0xF rfl rfl,
    ⟨_, rfl, zext12_toNat nnn, accessMatrixIsKept (.ldI nnn) s _ rfl⟩,
    ⟨_, rfl, add_zext8_toNat s.i (readReg s x), accessMatrixIsKept (.addI x) s _ rfl⟩,
    ⟨_, rfl, zext8_mul_five_toNat (readReg s x), accessMatrixIsKept (.ldF x) s _ rfl⟩⟩

end Sys2Proof.Proofs

/-!
Display (spec 43_display.md): CLS, the blit in terms of the pixels that a sprite covers, its being its own inverse, and DRW,
which checks its bytes first and then blits them.
-/

namespace Sys2Proof.Proofs

open Sys2Proof.Machine Sys2Proof.Safety

/-! ### CLS (R140) -/

/-- Settles O44. -/
theorem clearTurnsEveryPixelOff : Obligations.ClearTurnsEveryPixelOff :=
  fun s => ⟨rfl, _, rfl, pixelAt_clearDisplay, accessMatrixIsKept .cls s _ rfl⟩

/-! ### The blit on covered pixels (R142 to R144) -/

/-- A place and its reduction to the grid are the same pixel (R144). -/
theorem pixelAt_wrapPlace (fb : Framebuffer) (p : Nat × Nat) :
    pixelAt fb (wrapPlace p).1 (wrapPlace p).2 = pixelAt fb p.1 p.2 := by
  simp [pixelAt, wrapPlace]

theorem wrapPlace_of_lt {px py : Nat} (hx : px < 64) (hy : py < 32) : wrapPlace (px, py) = (px, py) := by
  simp [wrapPlace, Nat.mod_eq_of_lt, hx, hy]

section Blit

variable {fb : Framebuffer} {sx sy : Nat} {rows : List Byte}

/-- A sprite covers pixels of the grid only. -/
theorem lt_of_covers {px py : Nat} (h : Covers sx sy rows px py) : px < 64 ∧ py < 32 := by
  obtain ⟨r, k, -, -, rfl, rfl⟩ := h
  exact ⟨Nat.mod_lt _ (by decide), Nat.mod_lt _ (by decide)⟩

/-- A covered pixel is toggled. -/
theorem pixelAt_blit_of_covers (hlen : rows.length ≤ 32) {px py : Nat} (h : Covers sx sy rows px py) :
    pixelAt (blit fb sx sy rows).1 px py = !pixelAt fb px py := by
  obtain ⟨hx, hy⟩ := lt_of_covers h
  rw [pixelAt_blit fb sx sy rows hlen, wrapPlace_of_lt hx hy, decide_eq_true ((covers_iff ..).mp h), Bool.xor_true]

/-- A pixel of the grid that is not covered keeps its value. -/
theorem pixelAt_blit_of_not_covers (hlen : rows.length ≤ 32) {px py : Nat} (hx : px < 64) (hy : py < 32)
    (h : ¬ Covers sx sy rows px py) : pixelAt (blit fb sx sy rows).1 px py = pixelAt fb px py := by
  rw [covers_iff] at h
  rw [pixelAt_blit fb sx sy rows hlen, wrapPlace_of_lt hx hy, decide_eq_false h, Bool.xor_false]

/-- A blit collides exactly when a covered pixel was lit (R143; 90_conflicts.md C1). -/
theorem blit_collided_iff (hlen : rows.length ≤ 32) :
    (blit fb sx sy rows).2 = true ↔ ∃ px py, Covers sx sy rows px py ∧ pixelAt fb px py = true := by
  simp only [blit_collided fb sx sy rows hlen, List.any_eq_true, covers_iff, List.mem_map]
  constructor
  · rintro ⟨p, hp, hlit⟩
    exact ⟨(wrapPlace p).1, (wrapPlace p).2, ⟨p, hp, rfl⟩, by rwa [pixelAt_wrapPlace]⟩
  · rintro ⟨px, py, ⟨p, hp, hwrap⟩, hlit⟩
    refine ⟨p, hp, ?_⟩
    rwa [← pixelAt_wrapPlace, hwrap]

/-- Toggling the covered pixels twice leaves the display as it was (R146). -/
theorem blit_blit (hlen : rows.length ≤ 32) : (blit (blit fb sx sy rows).1 sx sy rows).1 = fb := by
  refine framebuffer_ext fun px py hx hy => ?_
  by_cases h : Covers sx sy rows px py
  · rw [pixelAt_blit_of_covers hlen h, pixelAt_blit_of_covers hlen h, Bool.not_not]
  · rw [pixelAt_blit_of_not_covers hlen hx hy h, pixelAt_blit_of_not_covers hlen hx hy h]

/-- The second blit finds a covered pixel lit that was off before the first. -/
theorem blit_blit_collided_iff (hlen : rows.length ≤ 32) :
    (blit (blit fb sx sy rows).1 sx sy rows).2 = true ↔
      ∃ px py, Covers sx sy rows px py ∧ pixelAt fb px py = false := by
  rw [blit_collided_iff hlen]
  refine exists_congr fun px => exists_congr fun py => and_congr_right fun h => ?_
  rw [pixelAt_blit_of_covers hlen h, Bool.not_eq_true']

end Blit

/-- Settles O46. -/
theorem blitIsItsOwnInverse : Obligations.BlitIsItsOwnInverse := by
  intro fb sx sy rows hrows
  have hlen : rows.length ≤ 32 := by omega
  exact ⟨blit_blit hlen, blit_collided_iff hlen, blit_blit_collided_iff hlen⟩

/-! ### DRW (R141; 60_exceptions.md R162) -/

section Drw

variable {x y : Reg} {n : Fin 16} {s : State}

/-- `Dxyn` whose bytes are in memory, or that has none, blits them and leaves the collision in VF. -/
theorem exec_drw_of_le (h : 0 < n.val → s.i.toNat + n.val - 1 ≤ 4095) {drawn : BlitState}
    (hdrawn : drawn = blit s.fb (readReg s x).toNat (readReg s y).toNat (readRange s s.i.toNat n.val)) :
    exec (.drw x y n) s = .next (writeReg { s with fb := drawn.1 } vf (flagByte drawn.2)) := by
  subst hdrawn
  refine if_neg ?_
  rw [outOfRange_iff, effectiveAddress]
  omega

theorem exec_drw_of_lt (hpos : 0 < n.val) (h : 4095 < s.i.toNat + n.val - 1) :
    exec (.drw x y n) s = raiseFault (.memFault .read s.i n.val) s := by
  refine if_pos ?_
  rw [outOfRange_iff, effectiveAddress]
  omega

end Drw

/-- Settles O45: the clauses are those of the range check, and behind it the blit's on the pixels that the bytes cover. -/
theorem drawTogglesCoveredPixels : Obligations.DrawTogglesCoveredPixels := by
  rintro x y n s rows sx sy hrows rfl rfl
  refine ⟨decode_wordXyn 0xD (nibble n) rfl rfl, fun h => ?_, fun hpos h => takesFault_of_raiseFault (exec_drw_of_lt hpos h)⟩
  have hlen : rows.length ≤ 32 := by
    rw [hrows, List.length_map, List.length_range]
    omega
  have hdrw := exec_drw_of_le h (congrArg (blit s.fb (readReg s x).toNat (readReg s y).toNat) hrows)
  have hcollided := blit_collided_iff (fb := s.fb) (sx := (readReg s x).toNat) (sy := (readReg s y).toNat) hlen
  refine ⟨_, hdrw, fun r hr => onlyNamedRegistersAreWritten (.drw x y n) s _ r hdrw (List.ne_of_not_mem_cons hr),
    changesOnly_of_exec hdrw (by simp [mayWrite, Same]), fun _ _ _ _ => pixelAt_blit_of_covers hlen,
    fun _ _ => pixelAt_blit_of_not_covers hlen, fun hlit => ?_, fun hdark => ?_⟩
  · rw [hcollided.mpr hlit]
    exact readReg_writeReg_same _ vf _
  · have hnone : (blit s.fb (readReg s x).toNat (readReg s y).toNat rows).2 = false := by
      rw [← Bool.not_eq_true, hcollided]
      rintro ⟨px, py, hcovers, hlit⟩
      exact Bool.eq_false_iff.mp (hdark px py hcovers) hlit
    rw [hnone]
    exact readReg_writeReg_same _ vf _

end Sys2Proof.Proofs

/-!
Keypad and timers (spec 44_keypad_timer.md). The key skips check first that Vx is a key code, and Fx0A answers by the one
question which key GetKeyPress picks (60_exceptions.md R175).
-/

namespace Sys2Proof.Proofs

open Sys2Proof.Machine Sys2Proof.Safety

/-! ### The key skips (R150, R151) -/

theorem exec_skp_of_key {x : Reg} {s : State} {k : KeyCode} (h : (readReg s x).toNat = k.val) :
    exec (.skp x) s = .next (skipIf (s.keys.get k) s) := by
  rw [← isKeyPressed_eq, ← h]
  exact if_neg (by omega)

theorem exec_sknp_of_key {x : Reg} {s : State} {k : KeyCode} (h : (readReg s x).toNat = k.val) :
    exec (.sknp x) s = .next (skipIf (!s.keys.get k) s) := by
  rw [← isKeyPressed_eq, ← h]
  exact if_neg (by omega)

theorem exec_skp_of_lt {x : Reg} {s : State} (h : 15 < (readReg s x).toNat) :
    exec (.skp x) s = raiseFault (.keyCodeFault (readReg s x)) s := if_pos h

theorem exec_sknp_of_lt {x : Reg} {s : State} (h : 15 < (readReg s x).toNat) :
    exec (.sknp x) s = raiseFault (.keyCodeFault (readReg s x)) s := if_pos h

/-- Settles O47: the clauses are those of the check of the key code. -/
theorem keySkips : Obligations.KeySkips := by
  refine fun x s => ⟨decode_wordXkk 0xE rfl rfl, decode_wordXkk 0xE rfl rfl, fun k hk => ⟨?_, ?_⟩,
    fun h => ⟨takesFault_of_raiseFault (exec_skp_of_lt h), takesFault_of_raiseFault (exec_sknp_of_lt h)⟩⟩
  · exact exists_next_of_skipIf (exec_skp_of_key hk)
  · have hsknp := exists_next_of_skipIf (exec_sknp_of_key hk)
    cases hkey : s.keys.get k <;> simpa [hkey] using hsknp

/-! ### The key that GetKeyPress picks (60_exceptions.md R175) -/

/-- GetKeyPress is not ready exactly when no key is down. -/
theorem pickKey_eq_none_iff (keys : Vector Bool 16) : pickKey keys = none ↔ ∀ k : KeyCode, keys.get k = false := by
  simp [pickKey]

/-- The codes are tried in rising order, so the key picked is the smallest (the spec's decision D8). -/
theorem pickKey_eq_some_iff (keys : Vector Bool 16) (k : KeyCode) :
    pickKey keys = some k ↔ keys.get k = true ∧ ∀ j : KeyCode, j < k → keys.get j = false := by
  rw [pickKey, List.find?_eq_some_iff_getElem]
  constructor
  · rintro ⟨hdown, i, hi, hik, hbefore⟩
    obtain rfl : i = k.val := by simpa using congrArg Fin.val hik
    refine ⟨hdown, fun j hj => ?_⟩
    simpa using hbefore j.val hj
  · rintro ⟨hdown, hlowest⟩
    refine ⟨hdown, k.val, by simp, by simp, fun j hj => ?_⟩
    simpa using hlowest ⟨j, hj.trans k.isLt⟩ hj

/-! ### The key wait (R153) -/

theorem exec_ldVxK_of_none {x : Reg} {s : State} (h : pickKey s.keys = none) :
    exec (.ldVxK x) s = .next { s with pc := s.pc - 2 } := by
  show execLdVxK x s = _
  rw [execLdVxK, h]
  rfl

theorem exec_ldVxK_of_some {x : Reg} {s : State} {k : KeyCode} (h : pickKey s.keys = some k) :
    exec (.ldVxK x) s = .next (writeReg s x (BitVec.ofNat 8 k.val)) := by
  show execLdVxK x s = _
  rw [execLdVxK, h]

/-- Settles O48: the clauses are the two answers of GetKeyPress. -/
theorem keyWaitRetriesOrTakesTheLowestKey : Obligations.KeyWaitRetriesOrTakesTheLowestKey := by
  refine fun x s => ⟨decode_wordXkk 0xF rfl rfl, fun hup => ?_, fun k hdown hlowest => ?_⟩
  · have hwait := exec_ldVxK_of_none (x := x) ((pickKey_eq_none_iff s.keys).mpr hup)
    exact ⟨_, hwait, BitVec.sub_add_cancel s.pc 2, changesOnly_of_exec hwait (by simp [mayWrite, Same, readReg])⟩
  · have hpick := (pickKey_eq_some_iff s.keys k).mpr ⟨hdown, hlowest⟩
    obtain ⟨t, ht, hdest, hregs, hframe⟩ := exists_next_of_writeReg (exec_ldVxK_of_some (x := x) hpick)
    refine ⟨t, ht, ?_, hregs, hframe⟩
    rw [hdest, BitVec.toNat_ofNat]
    omega

/-! ### The timer instructions (R152, R154, R155) -/

/-- Sound is active exactly while the sound timer's count is positive (60_exceptions.md R172, R179). -/
theorem soundActive_iff (s : State) : soundActive s = true ↔ 0 < s.st.count.toNat := by
  simp [soundActive, timerActive]

/-- Settles O49. -/
theorem timerInstructions : Obligations.TimerInstructions :=
  fun x s => ⟨decode_wordXkk 0xF rfl rfl, decode_wordXkk 0xF rfl rfl, decode_wordXkk 0xF rfl rfl,
    exists_next_of_writeReg rfl,
    ⟨_, rfl, rfl, rfl, accessMatrixIsKept (.ldDtVx x) s _ rfl⟩,
    ⟨_, rfl, rfl, rfl, accessMatrixIsKept (.ldStVx x) s _ rfl, soundActive_iff _⟩⟩

end Sys2Proof.Proofs

/-!
Faults (spec 60_exceptions.md R160 to R168): an instruction leaves the latch alone or takes the fault of its row, a cycle
that takes a fault is undone but for the latch, and only a Reset clears the latch.
-/

namespace Sys2Proof.Proofs

open Sys2Proof.Machine Sys2Proof.Safety

/-! ### What an instruction does to the latch (R160, R167) -/

/-- The latch is as before, or a fault of the instruction's row was taken, and nothing else was done. -/
def KeepsLatchOrFaults (i : Instr) (s t : State) : Prop :=
  t.fault = s.fault ∨ ∃ f, FaultListed i s f ∧ t = takeFault (s.pc - 2) f s

/-- The shape of an instruction that checks its bound first: the fault is that of its row, and what comes behind the check
leaves the latch alone. -/
theorem keepsLatchOrFaults_check {i : Instr} {c : Prop} [Decidable c] {f : FaultRecord} {s : State} {r : Result}
    (hlisted : c → FaultListed i s f) (hlatch : EveryNext (fun t => t.fault = s.fault) r) :
    EveryNext (KeepsLatchOrFaults i s) (if c then raiseFault f s else r) := by
  split
  · next hc => exact everyNext_next.mpr (.inr ⟨f, hlisted hc, rfl⟩)
  · exact hlatch.imp fun _ => .inl

/-- The range check of an access in the form of its rows: element `n` of the access is above 4095 (R162). -/
theorem lt_of_outOfRange {base : Word} {n : Nat} (h : outOfRange (effectiveAddress base 0) (n + 1) = true) :
    4095 < base.toNat + n := by
  rw [outOfRange_iff, effectiveAddress] at h
  omega

/-- The instructions with a row of R160 raise what it lists behind its condition; the others do not write the latch. -/
theorem exec_keepsLatchOrFaults (i : Instr) (s : State) : EveryNext (KeepsLatchOrFaults i s) (exec i s) := by
  cases i with
  | ret =>
    refine keepsLatchOrFaults_check (fun hempty => ⟨hempty, rfl⟩) ?_
    split
    · exact everyNext_next.mpr rfl
    · exact everyNext_fault
  | call nnn =>
    refine keepsLatchOrFaults_check (fun hfull => ⟨hfull, rfl⟩) ?_
    split
    · exact everyNext_next.mpr rfl
    · exact everyNext_fault
  | drw x y n =>
    refine keepsLatchOrFaults_check (fun hrange => ?_) (everyNext_next.mpr rfl)
    rw [outOfRange_iff, effectiveAddress] at hrange
    exact ⟨hrange.1, by omega, rfl⟩
  | ldB x | storeRegs x =>
    refine keepsLatchOrFaults_check (fun hrange => ⟨lt_of_outOfRange hrange, rfl⟩) (everyNext_next.mpr ?_)
    rw [writeRange_fault]
  | loadRegs x => exact keepsLatchOrFaults_check (fun hrange => ⟨lt_of_outOfRange hrange, rfl⟩) (everyNext_next.mpr rfl)
  | skp x | sknp x =>
    exact keepsLatchOrFaults_check (fun hcode => ⟨hcode, rfl⟩) (everyNext_next.mpr (skipIf_fault ..))
  | _ => exact fun t ht => .inl (exec_sameData (p := .fault) ht (by simp [mayWrite]))

/-- Settles O12: with the latch clear before, a fault in it afterwards is the one that was taken. -/
theorem faultsAreThoseListed : Obligations.FaultsAreThoseListed := by
  refine ⟨fun i s t f hclear ht hf => ?_, fun _ _ _ _ => ⟨rfl, rfl, rfl, rfl⟩⟩
  rcases exec_keepsLatchOrFaults i s t ht with hsame | ⟨g, hlisted, rfl⟩
  · simp [hf, hclear] at hsame
  · obtain rfl : g = f := by simpa using hf
    exact hlisted

/-! ### A faulting cycle is undone (R167) -/

/-- Taking a fault after the fetch puts PC back to where the cycle began. -/
theorem takeFault_afterFetch (f : FaultRecord) (s : State) :
    takeFault ((afterFetch s).pc - 2) f (afterFetch s) = { s with fault := some f } := by
  rw [afterFetch_pc, BitVec.add_sub_cancel]
  rfl

/-- A cycle leaves the latch alone, or sets it and leaves everything else alone. -/
theorem cpuCycle_undone_of_fault (s : State) :
    EveryNext (fun t => t.fault = s.fault ∨ ∃ f, t = { s with fault := some f }) (cpuCycle s) :=
  cpuCycle_everyNext (fun _ => .inr ⟨_, rfl⟩) fun _ i =>
    (exec_keepsLatchOrFaults i (afterFetch s)).imp fun t ht => by
      rcases ht with hsame | ⟨f, -, rfl⟩
      · exact .inl hsame
      · exact .inr ⟨f, takeFault_afterFetch f s⟩

/-- Settles O10: the step is one cycle, and the stopped machine it leaves has nothing pending. -/
theorem faultingCycleIsUndone : Obligations.FaultingCycleIsUndone := by
  intro s t f hrun hstep hf
  obtain ⟨hclear, hhost⟩ := hrun
  rw [step_of_running ⟨hclear, hhost⟩] at hstep
  rcases cpuCycle_undone_of_fault s t hstep with hsame | ⟨g, rfl⟩
  · simp [hf, hclear] at hsame
  · obtain rfl : g = f := by simpa using hf
    exact ⟨rfl, step_of_stopped rfl hhost⟩

end Sys2Proof.Proofs

/-!
Timers and Ticks (spec 60_exceptions.md R172 to R177): the timer's loop in closed form, a Tick without a cycle, and the
catch-up loop as the cycles that are due.
-/

namespace Sys2Proof.Proofs

open Sys2Proof.Machine Sys2Proof.Safety

/-! ### The timers (R173) -/

/-- The timer's loop makes one decrement per 25 quanta, as many as are due and at most the count. -/
theorem timerLoop_eq (c acc : Nat) :
    timerLoop c acc = ⟨BitVec.ofNat 8 (c - min c (acc / 25)), acc - 25 * min c (acc / 25)⟩ := by
  induction c generalizing acc with
  | zero => simp [timerLoop]
  | succ c ih =>
    rw [timerLoop_succ]
    split
    · next hdue =>
      have hmin : min (c + 1) (acc / 25) = min c ((acc - 25) / 25) + 1 := by omega
      have hacc : acc - 25 * (min c ((acc - 25) / 25) + 1) = acc - 25 - 25 * min c ((acc - 25) / 25) := by omega
      rw [ih, hmin, hacc, Nat.add_sub_add_right]
    · next hearly =>
      have hmin : min (c + 1) (acc / 25) = 0 := by omega
      rw [hmin]
      rfl

/-- Settles O50: the count fits a byte, so that the closed form of the loop is read without wrapping. -/
theorem timerTickDecrementsOncePerPeriod : Obligations.TimerTickDecrementsOncePerPeriod := by
  refine fun dt t => ⟨fun hidle => by rw [timerTick_idle dt hidle, hidle], fun hrun d hd => ?_⟩
  have hcount := t.count.isLt
  rw [timerTick, if_neg hrun, timerLoop_eq, ← hd, BitVec.toNat_ofNat]
  exact ⟨by omega, rfl⟩

/-! ### A Tick without a cycle (R176, R177) -/

theorem cpuTick_of_stopped {dt : Nat} {s : State} {f : FaultRecord} (h : s.fault = some f) : cpuTick dt s = .next s := by
  simp [cpuTick, h]

theorem cpuTick_of_clear {dt : Nat} {s : State} (h : s.fault = none) :
    cpuTick dt s = cpuLoop (s.cpuAcc + dt) { s with cpuAcc := s.cpuAcc + dt } := by
  simp [cpuTick, h]

/-- A Tick answers what the CPU's part answers, without the draws that are left. -/
theorem machineTick_of_cpuTick {dt : Nat} {draws : List Byte} {s t : State}
    (h : cpuTick dt (tickTimers dt draws s) = .next t) : machineTick dt draws s = .next { t with draws := [] } := by
  rw [machineTick, h]

/-- Below a period the loop is over, however many turns it has left. -/
theorem cpuLoop_of_lt (n : Nat) {s : State} (h : s.cpuAcc < 3) : cpuLoop n s = .next s := by
  cases n with
  | zero => rfl
  | succ n => exact if_pos h

/-- Settles O51. -/
theorem tickWithoutACycle : Obligations.TickWithoutACycle := by
  intro dt draws s
  constructor
  · intro f hf
    exact machineTick_of_cpuTick (cpuTick_of_stopped (s := tickTimers dt draws s) hf)
  · intro hclear hearly
    have htick : cpuTick dt (tickTimers dt draws s) = _ := cpuTick_of_clear hclear
    rw [cpuLoop_of_lt _ hearly] at htick
    exact machineTick_of_cpuTick htick

/-! ### No cycle reads the CPU's accumulator (10_state.md R34, R39) -/

/-- The state with `a` quanta in `cpu_acc`. -/
def setAcc (a : Nat) (s : State) : State := { s with cpuAcc := a }

/-- The result with `a` quanta in the `cpu_acc` of its next state, if there is one. -/
def resultSetAcc (a : Nat) : Result → Result
  | .next t => .next (setAcc a t)
  | .fault r => .fault r
  | .refused r => .refused r

theorem skipIf_setAcc (a : Nat) (c : Bool) (s : State) : skipIf c (setAcc a s) = setAcc a (skipIf c s) := by
  cases c <;> rfl

theorem takeDraw_setAcc (a : Nat) (s : State) : takeDraw (setAcc a s) = ((takeDraw s).1, setAcc a (takeDraw s).2) := by
  cases hdraws : s.draws with
  | nil => rw [takeDraw_nil hdraws, takeDraw_nil (s := setAcc a s) hdraws]; rfl
  | cons d rest => rw [takeDraw_cons hdraws, takeDraw_cons (s := setAcc a s) hdraws]; rfl

theorem writeRange_setAcc (a : Nat) (s : State) (base : Nat) (bs : List Byte) :
    writeRange (setAcc a s) base bs = setAcc a (writeRange s base bs) := by
  induction bs generalizing s base with
  | nil => rfl
  | cons b rest ih => exact ih (writeByte s base b) (base + 1)

/-- A condition that does not read `cpu_acc` chooses the same branch. -/
theorem ite_setAcc {a : Nat} {c : Prop} [Decidable c] {r₁ r₂ r₁' r₂' : Result} (h₁ : r₁' = resultSetAcc a r₁)
    (h₂ : r₂' = resultSetAcc a r₂) : (if c then r₁' else r₂') = resultSetAcc a (if c then r₁ else r₂) := by
  rw [h₁, h₂, apply_ite (resultSetAcc a)]

/-- An instruction does the same whatever `cpu_acc` holds. -/
theorem exec_setAcc (i : Instr) (a : Nat) (s : State) : exec i (setAcc a s) = resultSetAcc a (exec i s) := by
  cases i with
  | ret =>
    refine ite_setAcc rfl ?_
    have hentry : readStack (setAcc a s) (setAcc a s).sp.toNat = readStack s s.sp.toNat := rfl
    rw [hentry]
    split <;> rfl
  | call nnn => exact ite_setAcc rfl (ite_setAcc rfl rfl)
  | seImm x kk | sneImm x kk | seReg x y | sneReg x y => exact congrArg Host.Outcome.next (skipIf_setAcc a _ s)
  | rnd x kk =>
    show Host.Outcome.next (writeReg (takeDraw (setAcc a s)).2 x ((takeDraw (setAcc a s)).1 &&& kk)) = _
    rw [takeDraw_setAcc]
    rfl
  | drw x y n | loadRegs x => exact ite_setAcc rfl rfl
  | ldB x | storeRegs x => exact ite_setAcc rfl (congrArg Host.Outcome.next (writeRange_setAcc a s _ _))
  | skp x | sknp x => exact ite_setAcc rfl (congrArg Host.Outcome.next (skipIf_setAcc a _ s))
  | ldVxK x =>
    cases hpick : pickKey s.keys with
    | none => rw [exec_ldVxK_of_none hpick, exec_ldVxK_of_none (s := setAcc a s) hpick]; rfl
    | some k => rw [exec_ldVxK_of_some hpick, exec_ldVxK_of_some (s := setAcc a s) hpick]; rfl
  | _ => rfl

/-- A cycle does the same whatever `cpu_acc` holds. -/
theorem cpuCycle_setAcc (a : Nat) (s : State) : cpuCycle (setAcc a s) = resultSetAcc a (cpuCycle s) := by
  rcases Nat.lt_or_ge 0xFFE s.pc.toNat with hpc | hpc
  · rw [cpuCycle_of_no_fetch hpc, cpuCycle_of_no_fetch (s := setAcc a s) hpc]
    rfl
  · rw [cpuCycle_of_fetch hpc, cpuCycle_of_fetch (s := setAcc a s) hpc]
    exact exec_setAcc (fetched s) a (afterFetch s)

/-! ### The catch-up loop is the cycles that are due (R177) -/

theorem runCycles_succ_of_clear {k : Nat} {s u : State} (h : runCycles (k + 1) s = .next u) (hu : u.fault = none) :
    ∃ t, cpuCycle s = .next t ∧ t.fault = none ∧ runCycles k t = .next u := by
  rw [runCycles] at h
  split at h
  · next t ht =>
    split at h
    · next hf =>
      obtain rfl := Host.Outcome.next.inj h
      simp [hu] at hf
    · next hf => exact ⟨t, ht, by simpa using hf, h⟩
  · cases h
  · cases h

/-- A turn of the loop with a period due: a cycle that faults ends the loop and spends nothing (the spec's decision D27),
one that completes spends the period, 3 quanta. -/
theorem cpuLoop_of_cycle {s t : State} (n a : Nat) (h : cpuCycle s = .next t) :
    cpuLoop (n + 1) (setAcc (a + 3) s) =
      if t.fault.isSome then .next (setAcc (a + 3) t) else cpuLoop n (setAcc a t) := by
  have hdue : ¬ (setAcc (a + 3) s).cpuAcc < Config.cpuPeriod := Nat.not_lt.mpr (Nat.le_add_left 3 a)
  rw [cpuLoop, if_neg hdue, cpuCycle_setAcc, h]
  rfl

/-- Turns of the loop whose cycles complete are those cycles, one period each. -/
theorem cpuLoop_of_runCycles {k : Nat} {s u : State} (n a : Nat) (h : runCycles k s = .next u) (hu : u.fault = none) :
    cpuLoop (n + k) (setAcc (a + k * 3) s) = cpuLoop n (setAcc a u) := by
  induction k generalizing s with
  | zero =>
    obtain rfl := Host.Outcome.next.inj h
    rw [Nat.zero_mul]
    rfl
  | succ k ih =>
    obtain ⟨t, hcycle, ht, hrest⟩ := runCycles_succ_of_clear h hu
    rw [Nat.succ_mul, ← Nat.add_assoc, ← Nat.add_assoc, cpuLoop_of_cycle _ _ hcycle, ht]
    exact ih hrest

/-- Of the turns that the quanta at the start allow, `k` complete and the rest are left to the loop, with the quanta left. -/
theorem cpuTick_of_runCycles {dt k : Nat} {s u : State} (hclear : s.fault = none) (h : runCycles k s = .next u)
    (hu : u.fault = none) (hk : k * 3 ≤ s.cpuAcc + dt) :
    cpuTick dt s = cpuLoop (s.cpuAcc + dt - k) (setAcc (s.cpuAcc + dt - k * 3) u) := by
  rw [cpuTick_of_clear hclear, ← cpuLoop_of_runCycles _ _ h hu, Nat.sub_add_cancel hk, Nat.sub_add_cancel (by omega)]
  rfl

/-- Settles O52: after `k` turns the loop is over with the remainder, or its next turn takes the fault. -/
theorem tickRunsTheDueCycles : Obligations.TickRunsTheDueCycles := by
  intro dt draws s s0 u k hclear hs0 hrun hu
  rw [cpuPeriod_eq]
  obtain rfl : s0 = tickTimers dt draws s := hs0
  have htick := cpuTick_of_runCycles (dt := dt) (s := tickTimers dt draws s) hclear hrun hu
  rw [tickTimers_cpuAcc] at htick
  constructor
  · intro hk
    have hrest : s.cpuAcc + dt - k * 3 = (s.cpuAcc + dt) % 3 := by omega
    rw [hrest, cpuLoop_of_lt _ (Nat.mod_lt _ (by decide))] at htick
    exact machineTick_of_cpuTick (htick (by omega))
  · intro w f hk hcycle hw
    obtain ⟨n, hn⟩ : ∃ n, s.cpuAcc + dt - k = n + 1 := Nat.exists_eq_add_one.mpr (by omega)
    obtain ⟨a, ha⟩ : ∃ a, s.cpuAcc + dt - k * 3 = a + 3 := Nat.exists_eq_add_of_le' (by omega)
    rw [hn, ha, cpuLoop_of_cycle n a hcycle, hw] at htick
    rw [ha]
    exact machineTick_of_cpuTick (htick (by omega))

end Sys2Proof.Proofs

/-!
The host's operations (spec 60_exceptions.md R168, R174 to R182): what a stopped machine does with them, the keys, what no
Tick changes, and the reads.
-/

namespace Sys2Proof.Proofs

open Sys2Proof.Machine Sys2Proof.Safety

/-! ### The frames of the host's operations -/

theorem keeps_keyDown {ps : List Part} {code : KeyCode} {s : State} (h : .keys ∈ ps) : Keeps ps s (keyDown code s) := by
  intro p hp
  cases p <;> simp_all [SameData]

theorem keeps_keyUp {ps : List Part} {code : KeyCode} {s : State} (h : .keys ∈ ps) : Keeps ps s (keyUp code s) := by
  intro p hp
  cases p <;> simp_all [SameData]

/-- Taking the oldest operation off the pending list changes the inputs only. -/
theorem keeps_host {ps : List Part} {s : State} {rest : List HostOp} (h : .inputs ∈ ps) :
    Keeps ps s { s with host := rest } := by
  intro p hp
  cases p <;> simp_all [SameData]

/-! ### The way out of a fault (R168) -/

/-- What the host can change while a fault is latched (R177): no instruction is among the causes. -/
def whileStopped : List Part := [.keys, .delay, .sound, .inputs]

/-- While a fault is latched a host operation other than Reset changes only keys, timers and the pending inputs. -/
theorem hostOp_keeps_of_stopped {op : HostOp} {s : State} {f : FaultRecord} (hf : s.fault = some f)
    (hop : ∀ rom, op ≠ .reset rom) : EveryNext (Keeps whileStopped s) (hostOp op s) := by
  cases op with
  | reset rom => exact absurd rfl (hop rom)
  | tick dt draws =>
    obtain ⟨hstopped, -⟩ := tickWithoutACycle dt draws s
    rw [hostOp, hstopped f hf]
    refine everyNext_next.mpr fun p hp => ?_
    cases p <;> simp [SameData, whileStopped] at hp ⊢
  | keyDown code => exact everyNext_next.mpr (keeps_keyDown (by simp [whileStopped]))
  | keyUp code => exact everyNext_next.mpr (keeps_keyUp (by simp [whileStopped]))

theorem step_keeps_of_stopped {s : State} {f : FaultRecord} (hf : s.fault = some f) (hnext : NextIsNotReset s) :
    EveryNext (Keeps whileStopped s) (step s) := by
  refine step_everyNext (fun op rest hhost => ?_) (fun _ p _ => ?_) fun hrun => ?_
  · have hop : ∀ rom, op ≠ .reset rom := fun rom hreset => hnext rom rest (hreset ▸ hhost)
    have hpending : Keeps whileStopped s { s with host := rest } := keeps_host (by simp [whileStopped])
    exact (hostOp_keeps_of_stopped (s := { s with host := rest }) hf hop).imp fun _ => hpending.trans
  · cases p <;> simp [SameData]
  · exact absurd (hf.symm.trans hrun.1) (by simp)

theorem step_clears_of_reset {s : State} (hnext : ¬ NextIsNotReset s) : EveryNext (fun t => t.fault = none) (step s) := by
  obtain ⟨rom, rest, hhost⟩ : ∃ rom rest, s.host = .reset rom :: rest := by simpa [NextIsNotReset] using hnext
  rw [step_of_pending hhost]
  exact hostOp_reset_everyNext fun _ _ => keeps_resetWith rom _ .fault (by simp)

/-- Settles O11: the latch is one of the parts that a step of a stopped machine leaves alone. -/
theorem onlyResetLeavesAFault : Obligations.OnlyResetLeavesAFault := by
  intro s t f hf hstep
  refine ⟨fun hnext => ?_, fun hreset => step_clears_of_reset hreset t hstep⟩
  have hkeeps := step_keeps_of_stopped hf hnext t hstep
  have hlatch : t.fault = s.fault := hkeeps .fault (by simp [whileStopped])
  exact ⟨hlatch.trans hf, hkeeps.changesOnly⟩

/-! ### Keys (R174, R175) -/

/-- Settles O54: the operation is taken off the list, then the event writes the one key. -/
theorem keyEventsChangeOneKey : Obligations.KeyEventsChangeOneKey := by
  intro code rest s
  have hpending : Keeps [.keys, .inputs] s { s with host := rest } := keeps_host (by simp)
  constructor
  · intro hhost
    refine ⟨_, step_of_pending hhost, rfl, rfl, rfl, fun k => ?_, (hpending.trans (keeps_keyDown (by simp))).changesOnly⟩
    by_cases hk : k = code <;> simp [keyDown_get, hk]
  · intro hhost
    refine ⟨_, step_of_pending hhost, rfl, rfl, rfl, fun k => ?_, (hpending.trans (keeps_keyUp (by simp))).changesOnly⟩
    by_cases hk : k = code <;> simp [keyUp_get, hk]

/-- Settles O55. -/
theorem pickKeyIsTheSmallestDown : Obligations.PickKeyIsTheSmallestDown :=
  fun keys => ⟨pickKey_eq_none_iff keys, pickKey_eq_some_iff keys⟩

/-! ### A Tick as one operation (R176, R181) -/

/-- The keys and what the host does next are the same. -/
def SameKeysAndHost (s t : State) : Prop := t.keys = s.keys ∧ t.host = s.host

/-- No instruction changes the keys or the pending operations; of the inputs, RND takes a draw. -/
theorem exec_sameKeysAndHost (i : Instr) (s : State) : EveryNext (SameKeysAndHost s) (exec i s) := by
  cases i with
  | rnd x kk => exact everyNext_next.mpr ⟨takeDraw_keys s, takeDraw_host s⟩
  | _ =>
    intro t ht
    obtain ⟨-, -, hhost⟩ : t.draws = s.draws ∧ t.drawCount = s.drawCount ∧ t.host = s.host :=
      exec_sameData (p := .inputs) ht (by simp [mayWrite])
    exact ⟨exec_sameData (p := .keys) ht (by simp [mayWrite]), hhost⟩

theorem cpuCycle_sameKeysAndHost (s : State) : EveryNext (SameKeysAndHost s) (cpuCycle s) :=
  cpuCycle_everyNext (fun _ => ⟨rfl, rfl⟩) fun _ i => exec_sameKeysAndHost i (afterFetch s)

/-- The keys and the pending operations go through every cycle of a Tick, and its draws are dropped (log entry 18). -/
theorem machineTick_sameKeysAndHost (dt : Nat) (draws : List Byte) (s : State) :
    EveryNext (fun t => SameKeysAndHost s t ∧ t.draws = []) (machineTick dt draws s) := by
  refine machineTick_everyNext (P := fun t => SameKeysAndHost s t ∧ t.draws = []) ?_
  have hcycle (u : State) (hu : SameKeysAndHost s u) : EveryNext (SameKeysAndHost s) (cpuCycle u) :=
    (cpuCycle_sameKeysAndHost u).imp fun _ ht => ⟨ht.1.trans hu.1, ht.2.trans hu.2⟩
  have htick : EveryNext (SameKeysAndHost s) (cpuTick dt (tickTimers dt draws s)) :=
    cpuTick_everyNext (fun _ => ⟨rfl, rfl⟩) fun _ => cpuLoop_keeps hcycle (fun _ _ h => h) _ ⟨rfl, rfl⟩
  exact htick.imp fun _ ht => ⟨ht, rfl⟩

/-- Settles O58. -/
theorem stepPerformsThePendingTick : Obligations.StepPerformsThePendingTick := by
  intro dt draws rest s hhost
  have hstep : step s = machineTick dt draws { s with host := rest } := step_of_pending hhost
  refine ⟨hstep, fun t ht => ?_⟩
  obtain ⟨⟨hkeys, hrest⟩, hdraws⟩ := machineTick_sameKeysAndHost dt draws { s with host := rest } t (hstep ▸ ht)
  exact ⟨hrest, hdraws, hkeys⟩

/-! ### The reads (R178 to R180) -/

/-- Settles O57. -/
theorem hostReadsTheState : Obligations.HostReadsTheState :=
  fun s => ⟨fun _ _ => rfl, soundActive_iff s, rfl⟩

end Sys2Proof.Proofs

/-!
The end of a run (spec 70_reset_and_hazards.md R204): the word at PC is the jump to PC itself.
-/

namespace Sys2Proof.Proofs

open Sys2Proof.Machine Sys2Proof.Safety

/-- An address in memory fits the 12 bits of a jump's target, and as a program counter it is that target again. -/
theorem exists_zext12_eq_of_lt {pc : Word} (h : pc.toNat < 4096) : ∃ nnn : BitVec 12, zext12 nnn = pc := by
  refine ⟨BitVec.ofNatLT pc.toNat h, BitVec.eq_of_toNat_eq ?_⟩
  rw [zext12_toNat, BitVec.toNat_ofNatLT]

/-- Where the word at PC jumps to PC, a cycle decodes that jump, which puts PC back to where it was before the fetch. -/
theorem step_of_endOfRun {s : State} (hhost : s.host = []) (h : EndOfRun s) : step s = .next s := by
  obtain ⟨hclear, hpc, hword⟩ := h
  obtain ⟨nnn, htarget⟩ := exists_zext12_eq_of_lt (pc := s.pc) (by omega)
  have hjump : BitVec.ofNat 16 (0x1000 + s.pc.toNat) = wordNnn 0x1 nnn := by rw [wordNnn, ← zext12_toNat, htarget]
  obtain ⟨hdecode, -⟩ := jumpGoesToItsTarget nnn s
  obtain ⟨hcycle, -⟩ := stepRunsTheDecodedInstruction s ⟨hclear, hhost⟩
  calc step s
      = exec (.jp nnn) { s with pc := s.pc + 2 } := by rw [hcycle hpc, hword, hjump, hdecode]
    _ = .next { s with pc := zext12 nnn } := rfl
    _ = .next s := by rw [htarget]

/-- Settles O9. -/
theorem endOfRunIsAFixedPoint : Obligations.EndOfRunIsAFixedPoint := fun _ => step_of_endOfRun

end Sys2Proof.Proofs

/-!
The bounds of the instructions (spec 70_reset_and_hazards.md R202). The condition of a fault's row (60_exceptions.md R160)
is the negation of the instruction's bound, so an instruction inside its bound raises nothing; outside it, it faults.
-/

namespace Sys2Proof.Proofs

open Sys2Proof.Machine Sys2Proof.Safety

/-- Where a row of R160 lists a fault for the instruction, the instruction's bound is broken. -/
theorem not_withinBounds_of_faultListed {i : Instr} {s : State} {f : FaultRecord} (h : FaultListed i s f) :
    ¬ WithinBounds i s := by
  cases i with
  | ret | call nnn =>
    obtain ⟨hsp, -⟩ := h
    simp [WithinBounds, hsp]
  | drw x y n =>
    obtain ⟨hpos, habove, -⟩ := h
    exact fun hbound => absurd (hbound hpos) (by omega)
  | ldB x | storeRegs x | loadRegs x | skp x | sknp x => exact Nat.not_le.mpr h.1
  | _ => exact h.elim

/-- An instruction whose bound is broken raises a fault; RET and CALL need SP in its range for it (10_state.md R26). -/
theorem exec_raises_of_not_withinBounds {i : Instr} {s : State} (hsp : s.sp.toNat ≤ 15) (h : ¬ WithinBounds i s) :
    ∃ f, exec i s = raiseFault f s := by
  cases i with
  | ret =>
    have hempty : ¬ 1 ≤ s.sp.toNat := h
    exact ⟨_, exec_ret_of_empty (by bv_omega)⟩
  | call nnn =>
    have hfull : ¬ s.sp.toNat ≤ 14 := h
    exact ⟨_, exec_call_of_full (by bv_omega)⟩
  | drw x y n =>
    obtain ⟨hpos, habove⟩ := Classical.not_imp.mp h
    exact ⟨_, exec_drw_of_lt hpos (Nat.not_le.mp habove)⟩
  | ldB x => exact ⟨_, exec_ldB_of_lt (Nat.not_le.mp h)⟩
  | storeRegs x => exact ⟨_, exec_storeRegs_of_lt (Nat.not_le.mp h)⟩
  | loadRegs x => exact ⟨_, exec_loadRegs_of_lt (Nat.not_le.mp h)⟩
  | skp x => exact ⟨_, exec_skp_of_lt (Nat.not_le.mp h)⟩
  | sknp x => exact ⟨_, exec_sknp_of_lt (Nat.not_le.mp h)⟩
  | _ => exact absurd trivial h

/-- Settles O13: the next state exists because SP indexes the stack, and a fault in it is one that the bound's breach
raised. -/
theorem instructionFaultsExactlyOutsideItsBounds : Obligations.InstructionFaultsExactlyOutsideItsBounds := by
  intro i s hclear hsp
  obtain ⟨t, ht, -⟩ := exec_answers i hsp
  refine ⟨t, ht, fun hnone => ?_, fun hin => ?_⟩
  · by_contra hout
    obtain ⟨f, hf⟩ := exec_raises_of_not_withinBounds hsp hout
    obtain rfl := Host.Outcome.next.inj (ht.symm.trans hf)
    simp at hnone
  · rcases exec_keepsLatchOrFaults i s t ht with hsame | ⟨f, hlisted, -⟩
    · exact hsame.trans hclear
    · exact absurd hin (not_withinBounds_of_faultListed hlisted)

end Sys2Proof.Proofs

/-!
Splitting a stretch of CPU time (spec 70_reset_and_hazards.md R207). The catch-up loop is bounded by the quanta at the
start; a bound that covers the quanta does not matter, so the loop over `a + b` quanta is the loop over `a` quanta and then
that over what it left and `b` more.
-/

namespace Sys2Proof.Proofs

open Sys2Proof.Machine Sys2Proof.Safety

/-- A turn with a period due whose cycle answers no next state answers what the cycle answers. -/
theorem cpuLoop_of_no_next {s : State} (n a : Nat) (h : ¬ ∃ t, cpuCycle s = .next t) :
    cpuLoop (n + 1) (setAcc (a + 3) s) = cpuCycle s := by
  have hdue : ¬ (setAcc (a + 3) s).cpuAcc < Config.cpuPeriod := Nat.not_lt.mpr (Nat.le_add_left 3 a)
  rw [cpuLoop, if_neg hdue, cpuCycle_setAcc]
  cases hcycle : cpuCycle s with
  | next t => exact absurd ⟨t, hcycle⟩ h
  | fault r | refused r => rfl

/-- One turn more than the quanta changes nothing: a turn ends the loop or spends a period. -/
theorem cpuLoop_succ_of_le {n a : Nat} (h : a ≤ n) (s : State) :
    cpuLoop (n + 1) (setAcc a s) = cpuLoop n (setAcc a s) := by
  induction n generalizing a s with
  | zero => exact cpuLoop_of_lt 1 (s := setAcc a s) (show a < 3 by omega)
  | succ n ih =>
    rcases Nat.lt_or_ge a 3 with hearly | hdue
    · rw [cpuLoop_of_lt _ (s := setAcc a s) hearly, cpuLoop_of_lt _ (s := setAcc a s) hearly]
    · obtain ⟨a, rfl⟩ := Nat.exists_eq_add_of_le' hdue
      by_cases hnext : ∃ t, cpuCycle s = .next t
      · obtain ⟨t, hcycle⟩ := hnext
        rw [cpuLoop_of_cycle _ _ hcycle, cpuLoop_of_cycle _ _ hcycle, ih (by omega)]
      · rw [cpuLoop_of_no_next _ _ hnext, cpuLoop_of_no_next _ _ hnext]

/-- The quanta are turns enough. -/
theorem cpuLoop_of_le {n a : Nat} (h : a ≤ n) (s : State) : cpuLoop n (setAcc a s) = cpuLoop a (setAcc a s) := by
  induction n, h using Nat.le_induction with
  | base => rfl
  | succ n hn ih => rw [cpuLoop_succ_of_le hn, ih]

/-- The first turn of a stretch of time with a period due, where its cycle answers a next state (60_exceptions.md R177). -/
theorem cpuLoop_add_period {s t : State} (a : Nat) (h : cpuCycle s = .next t) :
    cpuLoop (a + 3) (setAcc (a + 3) s) = if t.fault.isSome then .next (setAcc (a + 3) t) else cpuLoop a (setAcc a t) := by
  rw [cpuLoop_of_cycle (a + 2) a h, cpuLoop_of_le (Nat.le_add_right a 2)]

/-- The loop over `a` quanta, where it ends without a fault, is how the loop over `a + b` quanta begins. -/
theorem cpuLoop_add {a b : Nat} {s t : State} (h : cpuLoop a (setAcc a s) = .next t) (ht : t.fault = none) :
    cpuLoop (a + b) (setAcc (a + b) s) = cpuLoop (t.cpuAcc + b) (setAcc (t.cpuAcc + b) t) := by
  induction a using Nat.strong_induction_on generalizing s with
  | _ a ih =>
    rcases Nat.lt_or_ge a 3 with hearly | hdue
    · rw [cpuLoop_of_lt _ (s := setAcc a s) hearly] at h
      obtain rfl := Host.Outcome.next.inj h
      rfl
    · obtain ⟨a, rfl⟩ := Nat.exists_eq_add_of_le' hdue
      by_cases hnext : ∃ u, cpuCycle s = .next u
      · obtain ⟨u, hcycle⟩ := hnext
        rw [Nat.add_right_comm, cpuLoop_add_period _ hcycle]
        rw [cpuLoop_add_period _ hcycle] at h
        split at h
        · next hfault =>
          obtain rfl := Host.Outcome.next.inj h
          exact absurd ht (Option.isSome_iff_ne_none.mp hfault)
        · next hclear =>
          rw [if_neg hclear]
          exact ih a (by omega) h
      · exact absurd ⟨t, (cpuLoop_of_no_next (a + 2) a hnext).symm.trans h⟩ hnext

/-- Settles O53: a stopped CPU would answer its fault, and the loop of a running one may be cut where it has no fault. -/
theorem cpuTimeMayBeSplit : Obligations.CpuTimeMayBeSplit := by
  intro a b s t h ht
  cases hfault : s.fault with
  | some f =>
    obtain rfl := Host.Outcome.next.inj ((cpuTick_of_stopped hfault).symm.trans h)
    simp [hfault] at ht
  | none =>
    rw [cpuTick_of_clear hfault] at h
    rw [cpuTick_of_clear hfault, cpuTick_of_clear ht, ← Nat.add_assoc]
    exact cpuLoop_add h ht

end Sys2Proof.Proofs
